-- ==== Sys2Proof/Word.lean ====
section
/-! DEFINITION. The words of the HUFF core: the widths of 00_scope.md R8 and the field widths of
30_encoding.md R91 as types. -/

namespace Sys2Proof

/-- A command word, 64 bits (00_scope.md R8 `CMD_W`, 30_encoding.md R90). -/
abbrev Word := BitVec 64

/-- One byte of a stream (10_state.md R30 to R32). -/
abbrev Byte := BitVec 8

/-- A symbol, 0 to 255 (00_scope.md R8 `NSYM_MAX`, R14). -/
abbrev Sym := BitVec 8

/-- One bit. `false` is 0 and `true` is 1. A bit string is a `List Bit` in the order its bits are
emitted or consumed (00_scope.md R10). -/
abbrev Bit := Bool

/-- A frequency-table entry, and the IMM field: 32 bits unsigned (00_scope.md R8 `COUNT_W`). -/
abbrev Count := BitVec 32

/-- The count of a tree node, and TOTAL: 40 bits unsigned (00_scope.md R8 `NODECOUNT_W`). -/
abbrev NodeCount := BitVec 40

/-- A value of the register read port: 32 bits (00_scope.md R8 `REG_W`). -/
abbrev RegWord := BitVec 32

/-- A word index of the register read port: 6 bits (00_scope.md R8 `REG_WORDS`, 10_state.md R35). -/
abbrev RegIndex := BitVec 6

end Sys2Proof
end

