-- ==== Sys2Proof/Machine/Operands.lean ====
section
/-! DEFINITION. Operand assembly (30_encoding.md R91, R92): the fields of a command word, and the
zero extensions the meanings apply to an operand (00_scope.md R9). -/

namespace Sys2Proof

/-- OPC, bits 63:56 (30_encoding.md R91). -/
def opcOf (w : Word) : BitVec 8 := w.extractLsb' 56 8

/-- SYM, bits 55:48: the FT index, or the symbol to encode (30_encoding.md R91). -/
def symOf (w : Word) : Sym := w.extractLsb' 48 8

/-- RSV, bits 47:33: reserved, zero in every command (30_encoding.md R91). -/
def rsvOf (w : Word) : BitVec 15 := w.extractLsb' 33 15

/-- B, bit 32: the bit value of WBIT (30_encoding.md R91). -/
def bOf (w : Word) : Bit := w.getLsbD 32

/-- IMM, bits 31:0: the count of FWR (30_encoding.md R91). -/
def immOf (w : Word) : Count := w.extractLsb' 0 32

namespace Machine

/-- The frequency-table index a SYM operand names: the full 8-bit value (20_memory.md R61). -/
def ftIndex (sym : Sym) : Nat := sym.toNat

/-- `zext_8` of a bit (40_bitio.md R120). -/
def zextBit8 (b : Bit) : Byte := (BitVec.ofBool b).setWidth 8

/-- `zext_32` of a bit (40_bitio.md R127). -/
def zextBit32 (b : Bit) : BitVec 32 := (BitVec.ofBool b).setWidth 32

/-- `zext_32` of a symbol (43_encode_decode.md R182). -/
def zextSym32 (sym : Sym) : BitVec 32 := sym.setWidth 32

/-- `zext_40` of a frequency (42_build.md R163). -/
def zextCount40 (c : Count) : NodeCount := c.setWidth 40

end Machine
end Sys2Proof
end

