-- ==== Sys2Proof/Syntax.lean ====
section
/-! DEFINITION. The twelve commands of HUFF-CMD version 1, with their operands as 30_encoding.md R92
gives them. -/

namespace Sys2Proof

/-- One constructor per row of the opcode map (30_encoding.md R94). The operands have the widths of
their fields, so that every term is a command the core has: the source's undefined case of a bit
"outside {0,1}" cannot be written (30_encoding.md R92, 93_implementation_defined.md I1). -/
inductive Instr where
  /-- `NOP`: do nothing (44_system.md R200). -/
  | nop
  /-- `FCLR`: clear the frequency table (41_frequency.md R140). -/
  | fclr
  /-- `FWR s, n`: write one entry (41_frequency.md R141). -/
  | fwr (sym : Sym) (imm : Count)
  /-- `FINC s`: count one occurrence (41_frequency.md R142). -/
  | finc (sym : Sym)
  /-- `FRD s`: read one entry (41_frequency.md R143). -/
  | frd (sym : Sym)
  /-- `BUILD`: build the tree (42_build.md R166). -/
  | build
  /-- `ENC s`: encode one symbol (43_encode_decode.md R180). -/
  | enc (sym : Sym)
  /-- `DEC`: decode one symbol (43_encode_decode.md R182). -/
  | dec
  /-- `WBIT b`: write one bit (40_bitio.md R124). -/
  | wbit (b : Bit)
  /-- `WFLUSH`: flush the writer (40_bitio.md R125). -/
  | wflush
  /-- `RINIT`: construct the reader (40_bitio.md R126). -/
  | rinit
  /-- `RBIT`: read one bit (40_bitio.md R127). -/
  | rbit
  deriving DecidableEq, Repr

end Sys2Proof
end

