-- ==== Sys2Proof/WellFormed.lean ====
section
/-! DEFINITION. Well-formedness. An `Instr` is well formed by the types of its operands; what can be
ill formed is a command WORD (30_encoding.md R93, R96) and an OPERAND as assembly source writes it
(30_encoding.md R99). Both checks stand here, field by field, apart from the decoder. -/

namespace Sys2Proof

/-- The "uses" column of 30_encoding.md R94: which of SYM, B and IMM an opcode uses. -/
structure Uses where
  sym : Bool
  b   : Bool
  imm : Bool
  deriving DecidableEq, Repr

/-- The opcode values of 30_encoding.md R94 with their "uses"; `none` for the 244 unassigned values
(30_encoding.md R96). -/
def usesOf (opc : BitVec 8) : Option Uses :=
  match opc.toNat with
  | 0x00 => some ⟨false, false, false⟩
  | 0x10 => some ⟨false, false, false⟩
  | 0x11 => some ⟨true, false, true⟩
  | 0x12 => some ⟨true, false, false⟩
  | 0x13 => some ⟨true, false, false⟩
  | 0x20 => some ⟨false, false, false⟩
  | 0x30 => some ⟨true, false, false⟩
  | 0x31 => some ⟨false, false, false⟩
  | 0x40 => some ⟨false, true, false⟩
  | 0x41 => some ⟨false, false, false⟩
  | 0x50 => some ⟨false, false, false⟩
  | 0x51 => some ⟨false, false, false⟩
  | _ => none

/-- A command word is well formed when its OPC is assigned, its RSV is zero, and every field its
opcode does not use is zero (30_encoding.md R93). -/
def wordWF (w : Word) : Bool :=
  match usesOf (opcOf w) with
  | none => false
  | some u =>
    rsvOf w == 0 && (u.sym || symOf w == 0) && (u.b || bOf w == false) && (u.imm || immOf w == 0)

/-- A symbol operand of assembly source: 0 to 255 (30_encoding.md R99). -/
def symOperandOk (n : Nat) : Bool := n ≤ 255

/-- The count operand of FWR in assembly source: 0 to 0xFFFFFFFF (30_encoding.md R99). -/
def countOperandOk (n : Nat) : Bool := n ≤ 0xFFFFFFFF

/-- The bit operand of WBIT in assembly source: 0 or 1 (30_encoding.md R99). -/
def bitOperandOk (n : Nat) : Bool := n ≤ 1

end Sys2Proof
end

