-- ==== Sys2Proof/Decode.lean ====
section
/-! DEFINITION. The opcode map as a list of rows, the decoder that walks it (30_encoding.md R94, R95),
and the encoder written from the format and the assembled words (30_encoding.md R91, R100). -/

namespace Sys2Proof

/-- One row of the opcode map (30_encoding.md R94): `mask`, `match`, and the command it names with
its SYM, B and IMM fields. -/
structure Row where
  mask    : Word
  pattern : Word
  command : Sym → Bit → Count → Instr

/-- The twelve rows of 30_encoding.md R94, in its order. -/
def opcodeMap : List Row := [
  ⟨0xFFFFFFFFFFFFFFFF, 0x0000000000000000, fun _ _ _ => .nop⟩,
  ⟨0xFFFFFFFFFFFFFFFF, 0x1000000000000000, fun _ _ _ => .fclr⟩,
  ⟨0xFF00FFFF00000000, 0x1100000000000000, fun sym _ imm => .fwr sym imm⟩,
  ⟨0xFF00FFFFFFFFFFFF, 0x1200000000000000, fun sym _ _ => .finc sym⟩,
  ⟨0xFF00FFFFFFFFFFFF, 0x1300000000000000, fun sym _ _ => .frd sym⟩,
  ⟨0xFFFFFFFFFFFFFFFF, 0x2000000000000000, fun _ _ _ => .build⟩,
  ⟨0xFF00FFFFFFFFFFFF, 0x3000000000000000, fun sym _ _ => .enc sym⟩,
  ⟨0xFFFFFFFFFFFFFFFF, 0x3100000000000000, fun _ _ _ => .dec⟩,
  ⟨0xFFFFFFFEFFFFFFFF, 0x4000000000000000, fun _ b _ => .wbit b⟩,
  ⟨0xFFFFFFFFFFFFFFFF, 0x4100000000000000, fun _ _ _ => .wflush⟩,
  ⟨0xFFFFFFFFFFFFFFFF, 0x5000000000000000, fun _ _ _ => .rinit⟩,
  ⟨0xFFFFFFFFFFFFFFFF, 0x5100000000000000, fun _ _ _ => .rbit⟩]

/-- A word is a row's command exactly when `(w AND mask) = match` (30_encoding.md R94). -/
def Row.accepts (r : Row) (w : Word) : Bool := (w &&& r.mask) == r.pattern

/-- `decode(w)` of 30_encoding.md R95, total on every 64-bit word; `none` is ILLEGAL. -/
def decode (w : Word) : Option Instr :=
  (opcodeMap.find? (·.accepts w)).map fun r => r.command (symOf w) (bOf w) (immOf w)

/-- A word of format C from its fields, RSV zero (30_encoding.md R91). -/
def wordOf (opc : BitVec 8) (sym : Sym) (b : Bit) (imm : Count) : Word :=
  opc ++ sym ++ 0#15 ++ BitVec.ofBool b ++ imm

/-- The assembled word of each form (30_encoding.md R100). -/
def encode : Instr → Word
  | .nop         => wordOf 0x00 0 false 0
  | .fclr        => wordOf 0x10 0 false 0
  | .fwr sym imm => wordOf 0x11 sym false imm
  | .finc sym    => wordOf 0x12 sym false 0
  | .frd sym     => wordOf 0x13 sym false 0
  | .build       => wordOf 0x20 0 false 0
  | .enc sym     => wordOf 0x30 sym false 0
  | .dec         => wordOf 0x31 0 false 0
  | .wbit b      => wordOf 0x40 0 b 0
  | .wflush      => wordOf 0x41 0 false 0
  | .rinit       => wordOf 0x50 0 false 0
  | .rbit        => wordOf 0x51 0 false 0

/-- The command whose bits are `w`, numbered as the opcode table numbers them. A command word is one
64-bit value (30_encoding.md R90) with no byte order (20_memory.md R64), so `w` is that value; the
bits at and above `nbits` are zero, and there is no word longer than 64 bits (log 16). -/
def decodeTableWord (nbits w : Nat) : Option Instr :=
  if nbits ≤ 64 then decode (BitVec.ofNat 64 (w % 2 ^ nbits)) else none

end Sys2Proof
end

