-- ==== Sys2Proof/Config.lean ====
section
/-! DEFINITION. What is fixed for the machine: the parameters of 00_scope.md R8, the constant
registers of 10_state.md R40, and the one value the spec leaves open, `EOS_FILL`. -/

namespace Sys2Proof.Config

/-- ID, the register at index 0x00: "HUFF" (10_state.md R40). -/
def idValue : RegWord := 0x48554646

/-- VERSION, the register at index 0x01: HUFF-CMD version 1 (10_state.md R40). -/
def versionValue : RegWord := 0x00000001

/-- CAPS, the register at index 0x0C (10_state.md R40). -/
def capsValue : RegWord := 0x00FF0120

/-- The largest value of a frequency-table entry (41_frequency.md R142). -/
def countMax : Count := 0xFFFFFFFF

/-- `NSYM_MAX`: how many symbols there are (00_scope.md R8). -/
def nsymMax : Nat := 256

/-- `MAX_CODE_LEN`: the longest code, in bits (00_scope.md R8, 42_build.md R170). -/
def maxCodeLen : Nat := 255

/-- `EOS_FILL` (00_scope.md R8, 40_bitio.md R121): the byte the `n`-th draw yields. A FREE VALUE: it
has no body, so nothing can be proved of any value of it (92_eei_decisions.md D21; log 2). -/
opaque eosFill : Nat → Byte

end Sys2Proof.Config
end

