-- ==== Sys2Proof/Machine/State.lean ====
section
/-! DEFINITION. Everything the spec gives the machine: the core's state tuple (10_state.md R20), the
streams it shares with the host (R30 to R32), its command port (R35), the position that stands in
the place of a program counter (R37), and the host agent's side (00_scope.md R6, 20_memory.md R72).
Plain data only. -/

namespace Sys2Proof.Machine

/-- `MODE` (10_state.md R21). -/
inductive Mode where
  /-- The core executes commands. -/
  | run
  /-- An error has occurred; the core discards every command. -/
  | faulted
  deriving DecidableEq, Repr

/-- The frequency-table space (10_state.md R22, 20_memory.md R60(a)): (index, count) pairs. The unit
is the whole 32-bit entry, because no command reaches part of one (20_memory.md R61). An index that
is not listed reads as 0, the reset content (10_state.md R46; log 1). -/
abbrev Memory := List (Nat × Count)

/-- A code tree (00_scope.md R12). No other shape exists. -/
inductive CodeTree where
  | leaf (sym : Sym) (count : NodeCount)
  | node (sym : Sym) (count : NodeCount) (left right : CodeTree)
  deriving DecidableEq, Repr

/-- `TS`, the tree state (10_state.md R23). -/
inductive TreeState where
  /-- NONE: no BUILD has executed since reset. -/
  | none
  /-- EMPTY: the last BUILD found every FT entry zero. -/
  | empty
  /-- BUILT(t): the last BUILD built tree t. -/
  | built (t : CodeTree)
  deriving DecidableEq, Repr

/-- The error causes a command can raise (60_exceptions.md R211). -/
inductive Cause where
  | illegalCmd
  | treeUnbuilt
  | treeEmpty
  | symAbsent
  | freqOverflow
  | readerUninit
  deriving DecidableEq, Repr

/-- What the host may do between commands (20_memory.md R72); a program for the core is a finite
sequence of these (00_scope.md R7). -/
inductive HostAction where
  /-- (a) push a command word. -/
  | push (w : Word)
  /-- (b) append bytes to the end of BIN. -/
  | appendBin (bytes : List Byte)
  /-- (c) remove up to `n` bytes from the front of BOUT. -/
  | drainBout (n : Nat)
  /-- (c) remove up to `n` bytes from the front of SOUT. -/
  | drainSout (n : Nat)
  /-- (d) read the register at a word index. -/
  | readReg (idx : RegIndex)
  /-- (e) assert reset. -/
  | assertReset
  deriving DecidableEq, Repr

/-- The host agent (00_scope.md R6): no state of the core. -/
structure HostSide where
  /-- The actions still to come, the next one first (20_memory.md R72, R73). -/
  script   : List HostAction
  /-- What its register reads returned, oldest first (10_state.md R38). -/
  reads    : List (RegIndex × RegWord)
  /-- The bytes it has removed from BOUT, oldest first (10_state.md R31). -/
  fromBout : List Byte
  /-- The bytes it has removed from SOUT, oldest first (10_state.md R32). -/
  fromSout : List Byte
  deriving DecidableEq, Repr

/-- The state. The fields `mode` to `errcmd` are the tuple of 10_state.md R20. -/
structure State where
  /-- MODE (R21). -/
  mode   : Mode
  /-- FT (R22). -/
  ft     : Memory
  /-- TS (R23). -/
  ts     : TreeState
  /-- TOTAL, 40 bits (R25). -/
  total  : NodeCount
  /-- NSYM, 9 bits, 0 to 256 (R25). -/
  nsym   : BitVec 9
  /-- BW_BUF, 8 bits (R27). -/
  bwBuf  : Byte
  /-- BW_CNT, 3 bits: how many bits the writer holds, 0 to 7 (R27). -/
  bwCnt  : Fin 8
  /-- BR_BUF, 8 bits (R28). -/
  brBuf  : Byte
  /-- BR_CNT: how many bits of BR_BUF are consumed, 0 to 8; the values 9 to 15 of its 4 bits never
  occur (R28; log 9). -/
  brCnt  : Fin 9
  /-- BR_INIT: the reader has been constructed (R28). -/
  brInit : Bool
  /-- EOS, sticky (R29). -/
  eos    : Bool
  /-- RES, 32 bits (R33). -/
  res    : BitVec 32
  /-- ERRC, 4 bits (R34). -/
  errc   : BitVec 4
  /-- ERRCMD, 64 bits (R34). -/
  errcmd : Word
  /-- BIN, the next byte first (R30). -/
  bin    : List Byte
  /-- BOUT, the first emitted byte first (R31). -/
  bout   : List Byte
  /-- SOUT, the first decoded symbol first (R32). -/
  sout   : List Byte
  /-- The `cmd` port: the word presented and not yet accepted (R35, 20_memory.md R71). -/
  cmd    : Option Word
  /-- The position in the host's command sequence: how many words were accepted (R37; log 6). -/
  pos    : Nat
  /-- The MODEL's own: how many bytes were drawn for EOS_FILL (log 2). -/
  draws  : Nat
  /-- The host agent's side (log 3). -/
  host   : HostSide
  deriving DecidableEq, Repr

/-- Why the machine stops with a fault. It has no constructor: no behaviour of the core is a stop
("No item is `stuck`: every command completes", 93_implementation_defined.md); an error of
60_exceptions.md R211 is a next state (log 13). -/
inductive Fault : Type
  deriving DecidableEq, Repr

/-- Why an instruction has no meaning. -/
inductive Refusal where
  /-- Raised by `exec`'s arm of an instruction that has no meaning yet. SAFE: the model stops where
  the hardware goes on. No arm raises it: every instruction has its meaning (log 13). -/
  | notModelled (mnemonic : String)
  deriving DecidableEq, Repr

/-- The outcome of a step. -/
abbrev Outcome := Host.Outcome State Fault Refusal

/-- The state right after reset, with nothing launched: every element at its value of 10_state.md
R46 (70_reset_and_hazards.md R250, R252), the streams empty (log 10), the model's own fields and the
host's side empty (logs 2, 3, 4, 6, 8). -/
def State.reset : State where
  mode   := .run
  ft     := []
  ts     := .none
  total  := 0
  nsym   := 0
  bwBuf  := 0
  bwCnt  := 0
  brBuf  := 0
  brCnt  := 0
  brInit := false
  eos    := false
  res    := 0
  errc   := 0
  errcmd := 0
  bin    := []
  bout   := []
  sout   := []
  cmd    := none
  pos    := 0
  draws  := 0
  host   := ⟨[], [], [], []⟩

end Sys2Proof.Machine
end

