-- ==== Sys2Proof/Machine/Ops.lean ====
section
/-! DEFINITION. The operations every meaning is built from: the frequency-table space, the streams,
the bit writer and the bit reader (40_bitio.md R120 to R123), error entry, which is how this core
takes an exception (60_exceptions.md R212), and reset, which is the only return from it (R218). -/

namespace Sys2Proof.Machine

/-! ### The frequency-table space (20_memory.md R60, R61) -/

/-- The canonical form: indices strictly rising and below 256, and no entry equal to what an
unlisted index reads as (log 1). -/
abbrev Memory.wf (m : Memory) : Prop :=
  (m.map Prod.fst).Pairwise (· < ·) ∧ ∀ e ∈ m, e.1 < Config.nsymMax ∧ e.2 ≠ 0

/-- What an unlisted index reads as: the reset content (10_state.md R46). -/
def Memory.unlisted : Count := 0

/-- `FT[a]` (00_scope.md R11): one whole entry. -/
def Memory.read : Memory → Nat → Count
  | [], _ => Memory.unlisted
  | (k, v) :: rest, a => if k = a then v else Memory.read rest a

/-- Puts an entry before the first listed index above it. -/
def Memory.insert (a : Nat) (v : Count) : Memory → Memory
  | [] => [(a, v)]
  | (k, x) :: rest => if a < k then (a, v) :: (k, x) :: rest else (k, x) :: Memory.insert a v rest

/-- `FT[a] <- v` (00_scope.md R11). Writing what an unlisted index reads as removes the entry. -/
def Memory.write (m : Memory) (a : Nat) (v : Count) : Memory :=
  let others := m.filter (fun e => e.1 != a)
  if v = Memory.unlisted then others else Memory.insert a v others

/-- `for s in 0 .. 255: FT[s] <- 0` (41_frequency.md R140), written once for all the entries. -/
def Memory.clear (_ : Memory) : Memory := []

/-! ### The streams (00_scope.md R11) -/

/-- `emit_byte(v)`: appends to BOUT (10_state.md R31). -/
def emitByte (v : Byte) (s : State) : State := { s with bout := s.bout ++ [v] }

/-- `emit_sym(v)`: appends to SOUT (10_state.md R32). -/
def emitSym (v : Sym) (s : State) : State := { s with sout := s.sout ++ [v] }

/-! ### The bit writer -/

/-- `BW_put(b)` (40_bitio.md R120): bit number `7 - BW_CNT` of the buffer, and the eighth bit emits
it. -/
def bwPut (b : Bit) (s : State) : State :=
  let buf := s.bwBuf ||| (zextBit8 b <<< (7 - s.bwCnt.val))
  if s.bwCnt = 7 then
    { emitByte buf s with bwBuf := 0, bwCnt := 0 }
  else
    { s with bwBuf := buf, bwCnt := s.bwCnt + 1 }

/-- `for each bit b of c, first to last: BW_put(b)` (43_encode_decode.md R180). -/
def bwPutAll (c : List Bit) (s : State) : State := c.foldl (fun s b => bwPut b s) s

/-- `BW_flush()` (40_bitio.md R123): emits the pending partial byte if there is one. -/
def bwFlush (s : State) : State :=
  if 0 < s.bwCnt then
    { emitByte s.bwBuf s with bwBuf := 0, bwCnt := 0 }
  else
    { s with bwBuf := 0, bwCnt := 0 }

/-! ### The bit reader -/

/-- `BR_fill()` (40_bitio.md R121): the next byte of BIN, or, when BIN is empty, a draw of `fill`
and EOS. `fill n` is the `n`-th drawn byte; the core supplies `Config.eosFill` (log 2). -/
def brFill (fill : Nat → Byte) (s : State) : State :=
  match s.bin with
  | byte :: rest => { s with bin := rest, brBuf := byte, brCnt := 0 }
  | [] => { s with brBuf := fill s.draws, draws := s.draws + 1, eos := true, brCnt := 0 }

/-- The refill of `BR_get()`: only when all 8 bits have been consumed (40_bitio.md R122). -/
def brRefill (fill : Nat → Byte) (s : State) : State :=
  if s.brCnt = 8 then brFill fill s else s

/-- `BR_get()` (40_bitio.md R122): refills lazily, then takes bit number `7 - BR_CNT`. -/
def brGet (fill : Nat → Byte) (s : State) : Bit × State :=
  let s := brRefill fill s
  (s.brBuf.getLsbD (7 - s.brCnt.val), { s with brCnt := s.brCnt + 1 })

/-! ### Errors and modes -/

/-- The code of a cause (60_exceptions.md R211). -/
def Cause.code : Cause → BitVec 4
  | .illegalCmd   => 1
  | .treeUnbuilt  => 2
  | .treeEmpty    => 3
  | .symAbsent    => 4
  | .freqOverflow => 5
  | .readerUninit => 6

/-- Error entry (60_exceptions.md R212): the cause, the whole command word and the mode are written,
and nothing else changes. There is no handler to go to (R214). -/
def raiseError (c : Cause) (w : Word) (s : State) : State :=
  { s with errc := c.code, errcmd := w, mode := .faulted }

/-- The first check of 60_exceptions.md R217: a command met in FAULTED mode is discarded, with no
change of any kind (R215); in RUN mode it has the effect `body` (log 12). -/
def inRun (s : State) (body : State → State) : Outcome :=
  match s.mode with
  | .faulted => .next s
  | .run => .next (body s)

/-- Reset by `rst_i` (70_reset_and_hazards.md R250): every element of the core's tuple at its value
of 10_state.md R46, BIN, BOUT and SOUT as they were. The port, the position, the draws and the
host's side are no elements of that tuple and stay (log 18). -/
def applyReset (s : State) : State :=
  { State.reset with
    bin := s.bin, bout := s.bout, sout := s.sout
    cmd := s.cmd, pos := s.pos, draws := s.draws, host := s.host }

end Sys2Proof.Machine
end

