-- ==== Sys2Proof/Machine/BitIO.lean ====
section
/-! DEFINITION. The bit I/O family (40_bitio.md). The meanings of the commands that may draw a byte
are given for any source of draws; the core's is `Config.eosFill` (log 2). -/

namespace Sys2Proof.Machine

/-- `WBIT b` (40_bitio.md R124). -/
def execWbit (b : Bit) (s : State) : Outcome := inRun s (bwPut b)

/-- `WFLUSH` (40_bitio.md R125). -/
def execWflush (s : State) : Outcome := inRun s bwFlush

/-- `RINIT` (40_bitio.md R126), for any source of draws. -/
def execRinitWith (fill : Nat → Byte) (s : State) : Outcome :=
  inRun s fun s => { brFill fill s with brInit := true }

/-- `RINIT` (40_bitio.md R126). -/
def execRinit (s : State) : Outcome := execRinitWith Config.eosFill s

/-- `RBIT` (40_bitio.md R127), for any source of draws. -/
def execRbitWith (fill : Nat → Byte) (s : State) : Outcome :=
  inRun s fun s =>
    if s.brInit = false then
      raiseError .readerUninit (encode .rbit) s
    else
      let (b, s) := brGet fill s
      { s with res := zextBit32 b }

/-- `RBIT` (40_bitio.md R127). -/
def execRbit (s : State) : Outcome := execRbitWith Config.eosFill s

end Sys2Proof.Machine
end

