-- ==== Sys2Proof/Machine/Trees.lean ====
section
/-! DEFINITION. The priority relation, the tree construction and the code of a symbol (42_build.md
R160 to R168), as functions of the frequency table and of trees. -/

namespace Sys2Proof.Machine

/-- `sym(t)` (00_scope.md R12). -/
def CodeTree.sym : CodeTree → Sym
  | .leaf sym _ => sym
  | .node sym _ _ _ => sym

/-- `count(t)` (00_scope.md R12). -/
def CodeTree.count : CodeTree → NodeCount
  | .leaf _ count => count
  | .node _ count _ _ => count

/-- `higher(A, B)` (42_build.md R160): unsigned comparisons. -/
def higher (a b : CodeTree) : Bool :=
  a.count.ult b.count || (a.count == b.count && b.sym.ult a.sym)

/-- The scan of `highest` below: `best` is the node kept so far, and the nodes it beats are passed
on. -/
def takeHighest (best : CodeTree) : List CodeTree → CodeTree × List CodeTree
  | [] => (best, [])
  | x :: rest =>
    if higher x best then
      let (h, others) := takeHighest x rest
      (h, best :: others)
    else
      let (h, others) := takeHighest best rest
      (h, x :: others)

/-- `highest(Q)` and `Q without highest(Q)` (42_build.md R162, R165); `none` when Q is empty. -/
def extractHighest : List CodeTree → Option (CodeTree × List CodeTree)
  | [] => none
  | x :: rest => some (takeHighest x rest)

/-- The symbols, 0 to 255 (00_scope.md R8). -/
def symbols : List Sym := (List.range Config.nsymMax).map (BitVec.ofNat 8)

/-- `Leaves(F)` (42_build.md R163): one leaf for each symbol with a nonzero frequency. -/
def leavesOf (f : Memory) : List CodeTree :=
  symbols.filterMap fun sym =>
    if f.read (ftIndex sym) = 0 then none
    else some (.leaf sym (zextCount40 (f.read (ftIndex sym))))

/-- The merged node of 42_build.md R165: the first-extracted node `a` gives its symbol and becomes
the left child. -/
def mergeNodes (a b : CodeTree) : CodeTree := .node a.sym (a.count + b.count) a b

/-- The loop of 42_build.md R165. Each round takes one node off the collection, so `|Q|` rounds
leave one node and the next round returns it (log 14). -/
def buildLoop : Nat → List CodeTree → Option CodeTree
  | 0, _ => none
  | fuel + 1, q =>
    match extractHighest q with
    | none => none
    | some (a, q₁) =>
      match extractHighest q₁ with
      | none => some a
      | some (b, q₂) => buildLoop fuel (mergeNodes a b :: q₂)

/-- `BuildTree` from its initial collection (42_build.md R165). -/
def buildFrom (q : List CodeTree) : Option CodeTree := buildLoop (q.length + 1) q

/-- `BuildTree(F)` (42_build.md R165); `none` is EMPTY. -/
def buildTree (f : Memory) : Option CodeTree := buildFrom (leavesOf f)

/-- TS after a BUILD (42_build.md R166). -/
def treeStateOf : Option CodeTree → TreeState
  | none => .empty
  | some t => .built t

/-- TOTAL after a BUILD: the sum of all 256 entries, 40 bits (42_build.md R166). -/
def totalOf (f : Memory) : NodeCount :=
  (symbols.map fun sym => zextCount40 (f.read (ftIndex sym))).sum

/-- NSYM after a BUILD: how many entries are nonzero (42_build.md R166). -/
def nsymOf (f : Memory) : BitVec 9 :=
  BitVec.ofNat 9 (symbols.countP fun sym => f.read (ftIndex sym) != 0)

/-- `path(t, s)` (42_build.md R168); `none` is ABSENT. A left step is 0 and a right step is 1. -/
def CodeTree.path : CodeTree → Sym → Option (List Bit)
  | .leaf sym' _, sym => if sym' = sym then some [] else none
  | .node _ _ left right, sym =>
    match left.path sym with
    | some p => some (false :: p)
    | none =>
      match right.path sym with
      | some p => some (true :: p)
      | none => none

/-- `code(t, s)` (42_build.md R168); a single leaf has the one-bit code 0 (R167). -/
def CodeTree.code (t : CodeTree) (sym : Sym) : Option (List Bit) :=
  match t with
  | .leaf sym' _ => if sym' = sym then some [false] else none
  | .node _ _ _ _ => t.path sym

/-- The leaves of a tree, from left to right. -/
def CodeTree.leaves : CodeTree → List CodeTree
  | .leaf sym count => [.leaf sym count]
  | .node _ _ left right => left.leaves ++ right.leaves

/-- The symbols of the leaves, from left to right. -/
def CodeTree.leafSyms (t : CodeTree) : List Sym := t.leaves.map CodeTree.sym

/-- How many Nodes a tree has (42_build.md R170). -/
def CodeTree.nodeCount : CodeTree → Nat
  | .leaf _ _ => 0
  | .node _ _ left right => left.nodeCount + right.nodeCount + 1

/-- The depth of a tree: the longest way from the root to a leaf (42_build.md R170). -/
def CodeTree.depth : CodeTree → Nat
  | .leaf _ _ => 0
  | .node _ _ left right => max left.depth right.depth + 1

/-- The sum of the counts of a tree's Nodes, exact (42_build.md R173). -/
def CodeTree.nodeCountSum : CodeTree → Nat
  | .leaf _ _ => 0
  | .node _ count left right => count.toNat + left.nodeCountSum + right.nodeCountSum

end Sys2Proof.Machine
end

