-- ==== Sys2Proof/Machine/Build.lean ====
section
/-! DEFINITION. The tree-build family (42_build.md R166). -/

namespace Sys2Proof.Machine

/-- `BUILD` (42_build.md R166): TS, TOTAL and NSYM from the whole table, which it does not write. -/
def execBuild (s : State) : Outcome :=
  inRun s fun s =>
    { s with ts := treeStateOf (buildTree s.ft), total := totalOf s.ft, nsym := nsymOf s.ft }

end Sys2Proof.Machine
end

