-- ==== Sys2Proof/Machine/Codec.lean ====
section
/-! DEFINITION. The encode and decode family (43_encode_decode.md). -/

namespace Sys2Proof.Machine

/-- `ENC s` (43_encode_decode.md R180): all checks, in order, before any bit is written. -/
def execEnc (sym : Sym) (s : State) : Outcome :=
  inRun s fun s =>
    match s.ts with
    | .none => raiseError .treeUnbuilt (encode (.enc sym)) s
    | .empty => raiseError .treeEmpty (encode (.enc sym)) s
    | .built t =>
      match t.code sym with
      | none => raiseError .symAbsent (encode (.enc sym)) s
      | some c => bwPutAll c s

/-- The walk of `DEC` from a node down to a leaf, one `BR_get()` a level: 0 goes left, 1 goes right
(43_encode_decode.md R182). -/
def walk (fill : Nat → Byte) : CodeTree → State → Sym × State
  | .leaf sym _, s => (sym, s)
  | .node _ _ left right, s =>
    let (b, s) := brGet fill s
    if b then walk fill right s else walk fill left s

/-- The symbol `DEC` reads under tree t: a single leaf consumes one bit of any value
(43_encode_decode.md R182, 42_build.md R167). -/
def decodeSym (fill : Nat → Byte) (t : CodeTree) (s : State) : Sym × State :=
  match t with
  | .leaf sym _ => (sym, (brGet fill s).2)
  | .node _ _ _ _ => walk fill t s

/-- `DEC` (43_encode_decode.md R182), for any source of draws (log 2). -/
def execDecWith (fill : Nat → Byte) (s : State) : Outcome :=
  inRun s fun s =>
    match s.ts with
    | .none => raiseError .treeUnbuilt (encode .dec) s
    | .empty => raiseError .treeEmpty (encode .dec) s
    | .built t =>
      if s.brInit = false then
        raiseError .readerUninit (encode .dec) s
      else
        let (sym, s) := decodeSym fill t s
        emitSym sym { s with res := zextSym32 sym }

/-- `DEC` (43_encode_decode.md R182). -/
def execDec (s : State) : Outcome := execDecWith Config.eosFill s

end Sys2Proof.Machine
end

