-- ==== Sys2Proof/Machine/Frequency.lean ====
section
/-! DEFINITION. The frequency-table family (41_frequency.md). -/

namespace Sys2Proof.Machine

/-- `FCLR` (41_frequency.md R140). -/
def execFclr (s : State) : Outcome := inRun s fun s => { s with ft := s.ft.clear }

/-- `FWR s, n` (41_frequency.md R141). -/
def execFwr (sym : Sym) (imm : Count) (s : State) : Outcome :=
  inRun s fun s => { s with ft := s.ft.write (ftIndex sym) imm }

/-- `FINC s` (41_frequency.md R142): at the 32-bit maximum it raises FREQ_OVERFLOW. -/
def execFinc (sym : Sym) (s : State) : Outcome :=
  inRun s fun s =>
    if s.ft.read (ftIndex sym) = Config.countMax then
      raiseError .freqOverflow (encode (.finc sym)) s
    else
      { s with ft := s.ft.write (ftIndex sym) (s.ft.read (ftIndex sym) + 1) }

/-- `FRD s` (41_frequency.md R143). -/
def execFrd (sym : Sym) (s : State) : Outcome :=
  inRun s fun s => { s with res := s.ft.read (ftIndex sym) }

end Sys2Proof.Machine
end

