-- ==== Sys2Proof/Machine/System.lean ====
section
/-! DEFINITION. The system family (44_system.md): NOP, and what an illegal word does. -/

namespace Sys2Proof.Machine

/-- `NOP` (44_system.md R200): no state is read or written. -/
def execNop (s : State) : Outcome := inRun s fun s => s

/-- An illegal word (44_system.md R201): ILLEGAL_CMD in RUN mode, discarded in FAULTED mode. -/
def execIllegal (w : Word) (s : State) : Outcome := inRun s (raiseError .illegalCmd w)

end Sys2Proof.Machine
end

