-- ==== Sys2Proof/Machine/Dispatch.lean ====
section
/-! DEFINITION. One arm per command of the opcode map (30_encoding.md R94). -/

namespace Sys2Proof.Machine

def exec (i : Instr) (s : State) : Host.Outcome State Fault Refusal :=
  match i with
  | .nop => Sys2Proof.Machine.execNop s
  | .fclr => Sys2Proof.Machine.execFclr s
  | .fwr sym imm => Sys2Proof.Machine.execFwr sym imm s
  | .finc sym => Sys2Proof.Machine.execFinc sym s
  | .frd sym => Sys2Proof.Machine.execFrd sym s
  | .build => Sys2Proof.Machine.execBuild s
  | .enc sym => Sys2Proof.Machine.execEnc sym s
  | .dec => Sys2Proof.Machine.execDec s
  | .wbit b => Sys2Proof.Machine.execWbit b s
  | .wflush => Sys2Proof.Machine.execWflush s
  | .rinit => Sys2Proof.Machine.execRinit s
  | .rbit => Sys2Proof.Machine.execRbit s

end Sys2Proof.Machine
end

