-- ==== Sys2Proof/Machine/Flags.lean ====
section
/-! DEFINITION. The flags: the fields of STATUS (10_state.md R41, R44) and the `fault_o` output
(60_exceptions.md R216). They are computed from the state and hold no storage. -/

namespace Sys2Proof.Machine

/-- STATUS.FAULT, bit 0: 1 when `MODE = FAULTED` (10_state.md R41). -/
def faultFlag (s : State) : Bit := s.mode == .faulted

/-- STATUS.TREE, bits 2:1 (10_state.md R41). -/
def treeField (s : State) : BitVec 2 :=
  match s.ts with
  | .none => 0b00
  | .empty => 0b01
  | .built _ => 0b10

/-- STATUS.SINGLE, bit 3: 1 when `TS = BUILT(t)` and t is a Leaf (10_state.md R41). -/
def singleFlag (s : State) : Bit :=
  match s.ts with
  | .built (.leaf _ _) => true
  | .built (.node _ _ _ _) => false
  | .empty => false
  | .none => false

/-- STATUS.RINIT, bit 4 (10_state.md R41). -/
def rinitFlag (s : State) : Bit := s.brInit

/-- STATUS.EOS, bit 5 (10_state.md R41). -/
def eosFlag (s : State) : Bit := s.eos

/-- STATUS (10_state.md R41): bits 31:6 are reserved and 0. -/
def statusWord (s : State) : RegWord :=
  0#26 ++ BitVec.ofBool (eosFlag s) ++ BitVec.ofBool (rinitFlag s) ++ BitVec.ofBool (singleFlag s)
    ++ treeField s ++ BitVec.ofBool (faultFlag s)

/-- The output `fault_o` (10_state.md R35, 60_exceptions.md R216). -/
def faultO (s : State) : Bit := faultFlag s

end Sys2Proof.Machine
end

