-- ==== Sys2Proof/Machine/Registers.lean ====
section
/-! DEFINITION. The register read port (10_state.md R38 to R43) and the observation of a run
(00_scope.md R13). -/

namespace Sys2Proof.Machine

/-- BWSTATE (10_state.md R43): `BW_BUF` in 7:0, `BW_CNT` in 10:8, the rest 0. -/
def bwStateWord (s : State) : RegWord := 0#21 ++ BitVec.ofNat 3 s.bwCnt.val ++ s.bwBuf

/-- BRSTATE (10_state.md R43): `BR_BUF` in 7:0, `BR_CNT` in 11:8, the rest 0. -/
def brStateWord (s : State) : RegWord := 0#20 ++ BitVec.ofNat 4 s.brCnt.val ++ s.brBuf

/-- The value a read of word index `idx` returns (10_state.md R40); an index with no entry reads as
0 (R39). -/
def readReg (idx : RegIndex) (s : State) : RegWord :=
  match idx.toNat with
  | 0x00 => Config.idValue
  | 0x01 => Config.versionValue
  | 0x02 => statusWord s
  | 0x03 => s.errc.setWidth 32
  | 0x04 => s.errcmd.extractLsb' 0 32
  | 0x05 => s.errcmd.extractLsb' 32 32
  | 0x06 => s.res
  | 0x07 => s.total.extractLsb' 0 32
  | 0x08 => (s.total.extractLsb' 32 8).setWidth 32
  | 0x09 => s.nsym.setWidth 32
  | 0x0A => bwStateWord s
  | 0x0B => brStateWord s
  | 0x0C => Config.capsValue
  | _ => 0

/-- The observation a model gives of a run (00_scope.md R13, 70_reset_and_hazards.md R266). -/
structure Observation where
  bout    : List Byte
  sout    : List Byte
  bin     : List Byte
  /-- The registers at word indices 0x00 to 0x0C, in order. -/
  regs    : List RegWord
  faulted : Bool
  deriving DecidableEq, Repr

/-- The observation of a state. -/
def observe (s : State) : Observation where
  bout    := s.bout
  sout    := s.sout
  bin     := s.bin
  regs    := (List.range 13).map fun i => readReg (BitVec.ofNat 6 i) s
  faulted := faultO s

end Sys2Proof.Machine
end

