-- ==== Sys2Proof/Machine/HostPort.lean ====
section
/-! DEFINITION. The host agent's steps (20_memory.md R72): each is one step, between commands. -/

namespace Sys2Proof.Machine

/-- What a host action does (20_memory.md R72). A push presents a word at the `cmd` port
(10_state.md R35); a drain takes the bytes there are, up to the number asked for (log 7); a register
read has no side effect on the core, and its value goes to the host (10_state.md R38; log 8). -/
def hostAct (a : HostAction) (s : State) : State :=
  match a with
  | .push w => { s with cmd := some w }
  | .appendBin bytes => { s with bin := s.bin ++ bytes }
  | .drainBout n =>
    { s with bout := s.bout.drop n, host := { s.host with fromBout := s.host.fromBout ++ s.bout.take n } }
  | .drainSout n =>
    { s with sout := s.sout.drop n, host := { s.host with fromSout := s.host.fromSout ++ s.sout.take n } }
  | .readReg idx => { s with host := { s.host with reads := s.host.reads ++ [(idx, readReg idx s)] } }
  | .assertReset => applyReset s

/-- The host's next step: its next action, taken off its script. With none left the core idles and
keeps all its state (60_exceptions.md R226, 70_reset_and_hazards.md R266; log 5). -/
def hostStep (s : State) : Outcome :=
  match s.host.script with
  | [] => .next s
  | a :: rest => .next (hostAct a { s with host := { s.host with script := rest } })

end Sys2Proof.Machine
end

