-- ==== Sys2Proof/Machine/Sequencer.lean ====
section
/-! DEFINITION. The core's step on a presented word (20_memory.md R71, 30_encoding.md R95). -/

namespace Sys2Proof.Machine

/-- The core takes the word from its port; the position in the host's sequence advances by one,
whatever the word is (10_state.md R37, 20_memory.md R71). -/
def acceptWord (s : State) : State := { s with cmd := none, pos := s.pos + 1 }

/-- One core step: the presented word is accepted, decoded and executed to completion
(00_scope.md R6, 20_memory.md R68). -/
def coreStep (w : Word) (s : State) : Outcome :=
  match decode w with
  | some i => exec i (acceptWord s)
  | none => execIllegal w (acceptWord s)

/-- `s` with the command word `w` presented at the port, so that the next step is the core's and
executes it; bits at and above `nbits` are zero (log 4). -/
def presentWord (s : State) (nbits w : Nat) : State :=
  { s with cmd := some (BitVec.ofNat 64 (w % 2 ^ nbits)) }

end Sys2Proof.Machine
end

