-- ==== Sys2Proof/Machine/Step.lean ====
section
/-! DEFINITION. One step of the total order of core steps and host steps (20_memory.md R73). -/

namespace Sys2Proof.Machine

/-- A word at the command port is the core's step; with no word there, it is the host's step, since
host actions happen only between commands (20_memory.md R72; log 3). -/
def step (s : State) : Host.Outcome State Fault Refusal :=
  match s.cmd with
  | some w => coreStep w s
  | none => hostStep s

/-- `s` with a command word where `step` finds its next command: the `cmd` port (log 4). -/
def State.withFetchWord (s : State) (nbits w : Nat) : State := presentWord s nbits w

end Sys2Proof.Machine
end

