-- ==== Sys2Proof/Machine/Asm.lean ====
section
/-! DEFINITION. The assembler (30_encoding.md R99 to R101): commands as source writes them, the
pseudo-commands, the words they assemble to, and the reading of one line. The quote, apostrophe and
brace characters are written by their ASCII codes. What the grammar leaves open is in log 17. -/

namespace Sys2Proof.Machine

/-- A command as assembly source writes it, its operands not yet checked (30_encoding.md R99), or a
pseudo-command (R101). -/
inductive AsmCommand where
  | nop
  | fclr
  | fwr (sym count : Nat)
  | finc (sym : Nat)
  | frd (sym : Nat)
  | build
  | enc (sym : Nat)
  | dec
  | wbit (b : Nat)
  | wflush
  | rinit
  | rbit
  /-- `FSCAN "text"`. -/
  | fscan (text : List Char)
  /-- `FLOAD` with pairs `s1:n1, s2:n2, ...` in braces. -/
  | fload (pairs : List (Nat × Nat))
  /-- `ENCS "text"`. -/
  | encs (text : List Char)
  /-- `DECN n`. -/
  | decn (n : Nat)
  /-- `WBITS "b1b2..."`. -/
  | wbits (text : List Char)
  deriving DecidableEq, Repr

/-! ### Operands and expansion -/

/-- A symbol operand goes to SYM when it is in range (30_encoding.md R99). -/
def symOperand (n : Nat) : Option Sym := if symOperandOk n then some (BitVec.ofNat 8 n) else none

/-- The count of FWR goes to IMM when it is in range (30_encoding.md R99). -/
def countOperand (n : Nat) : Option Count :=
  if countOperandOk n then some (BitVec.ofNat 32 n) else none

/-- The bit of WBIT goes to B when it is 0 or 1 (30_encoding.md R99). -/
def bitOperand (n : Nat) : Option Bit := if bitOperandOk n then some (n == 1) else none

/-- A character of `"text"` stands for its ASCII code (30_encoding.md R101). -/
def textSym (c : Char) : Option Sym :=
  if c.toNat < 128 then some (BitVec.ofNat 8 c.toNat) else none

/-- A character of `WBITS` text: 0 or 1 (30_encoding.md R101). -/
def textBit (c : Char) : Option Bit :=
  if c = '0' then some false else if c = '1' then some true else none

/-- One pair of FLOAD (30_encoding.md R101). -/
def pairCommand (p : Nat × Nat) : Option Instr :=
  match symOperand p.1, countOperand p.2 with
  | some sym, some imm => some (.fwr sym imm)
  | _, _ => none

/-- All the results, in order, or none if one of them is an error. -/
def allOrNone {α β : Type} (f : α → Option β) : List α → Option (List β)
  | [] => some []
  | x :: rest =>
    match f x, allOrNone f rest with
    | some y, some ys => some (y :: ys)
    | _, _ => none

/-- The commands a source command stands for (30_encoding.md R99, R101). `none` is an assembly
error, which produces no word. -/
def assemble : AsmCommand → Option (List Instr)
  | .nop => some [.nop]
  | .fclr => some [.fclr]
  | .fwr sym count => (pairCommand (sym, count)).map ([·])
  | .finc sym => (symOperand sym).map ([.finc ·])
  | .frd sym => (symOperand sym).map ([.frd ·])
  | .build => some [.build]
  | .enc sym => (symOperand sym).map ([.enc ·])
  | .dec => some [.dec]
  | .wbit b => (bitOperand b).map ([.wbit ·])
  | .wflush => some [.wflush]
  | .rinit => some [.rinit]
  | .rbit => some [.rbit]
  | .fscan text => (allOrNone textSym text).map fun syms => syms.map .finc
  | .fload pairs => (allOrNone pairCommand pairs).map fun writes => .fclr :: writes
  | .encs text => (allOrNone textSym text).map fun syms => syms.map .enc ++ [.wflush]
  | .decn n => some (List.replicate n .dec)
  | .wbits text => (allOrNone textBit text).map fun bits => bits.map .wbit

/-- The words a source command assembles to (30_encoding.md R100). -/
def assembleWords (c : AsmCommand) : Option (List Word) := (assemble c).map fun is => is.map encode

/-! ### Reading a line -/

/-- The tokens of a line. A number and a character operand are both a number (30_encoding.md R99:
a character stands for its ASCII code). -/
inductive Token where
  | name (letters : List Char)
  | num (n : Nat)
  | text (chars : List Char)
  | comma
  | colon
  | openBrace
  | closeBrace
  deriving DecidableEq, Repr

/-- A character that begins and ends `"text"`. -/
def quoteChar : Char := Char.ofNat 0x22

/-- A character that begins and ends a character operand. -/
def apostropheChar : Char := Char.ofNat 0x27

/-- A printable ASCII character (30_encoding.md R99). -/
def isPrintable (c : Char) : Bool := 0x20 ≤ c.toNat && c.toNat ≤ 0x7E

/-- The value of a digit in a base. -/
def digitValue (base : Nat) (c : Char) : Option Nat :=
  let v :=
    if '0' ≤ c && c ≤ '9' then c.toNat - '0'.toNat
    else if 'a' ≤ c && c ≤ 'f' then c.toNat - 'a'.toNat + 10
    else if 'A' ≤ c && c ≤ 'F' then c.toNat - 'A'.toNat + 10
    else base
  if v < base then some v else none

/-- The value of a nonempty string of digits, the most significant first. -/
def digitsValue (base : Nat) (cs : List Char) : Option Nat :=
  if cs.isEmpty then none
  else (allOrNone (digitValue base) cs).map fun ds => ds.foldl (fun acc d => acc * base + d) 0

/-- `number` of 30_encoding.md R99: decimal, `0x` hexadecimal or `0b` binary. -/
def numberOf : List Char → Option Nat
  | '0' :: 'x' :: cs => digitsValue 16 cs
  | '0' :: 'b' :: cs => digitsValue 2 cs
  | cs => digitsValue 10 cs

/-- A punctuation token. -/
def punctuationOf (c : Char) : Option Token :=
  if c = ',' then some .comma
  else if c = ':' then some .colon
  else if c.toNat = 0x7B then some .openBrace
  else if c.toNat = 0x7D then some .closeBrace
  else none

/-- Puts a token before the rest. -/
def withToken (t : Option Token) (rest : Option (List Token)) : Option (List Token) :=
  match t, rest with
  | some t, some ts => some (t :: ts)
  | _, _ => none

/-- The tokens of a line up to its comment; mnemonics are case-insensitive (30_encoding.md R99).
Every token takes a character, so the length of the line is fuel enough. -/
def tokensOf : Nat → List Char → Option (List Token)
  | _, [] => some []
  | 0, _ :: _ => none
  | fuel + 1, c :: cs =>
    if c = ';' then some []
    else if c = ' ' || c = '\t' then tokensOf fuel cs
    else if c.isAlpha then
      withToken (some (.name ((c :: cs.takeWhile Char.isAlpha).map Char.toUpper)))
        (tokensOf fuel (cs.dropWhile Char.isAlpha))
    else if c.isDigit then
      withToken ((numberOf (c :: cs.takeWhile Char.isAlphanum)).map .num)
        (tokensOf fuel (cs.dropWhile Char.isAlphanum))
    else if c = apostropheChar then
      match cs with
      | x :: close :: rest =>
        if close = apostropheChar && isPrintable x then
          withToken (some (.num x.toNat)) (tokensOf fuel rest)
        else none
      | _ => none
    else if c = quoteChar then
      match cs.dropWhile (· != quoteChar) with
      | _ :: rest => withToken (some (.text (cs.takeWhile (· != quoteChar)))) (tokensOf fuel rest)
      | [] => none
    else withToken (punctuationOf c) (tokensOf fuel cs)

/-- `"," operand` repeated (30_encoding.md R99). -/
def operandTail : List Token → Option (List Nat)
  | [] => some []
  | .comma :: .num n :: rest => (operandTail rest).map (n :: ·)
  | _ => none

/-- `[operand ["," operand]...]` (30_encoding.md R99). -/
def operandsOf : List Token → Option (List Nat)
  | [] => some []
  | .num n :: rest => (operandTail rest).map (n :: ·)
  | _ => none

/-- The pairs of FLOAD after the first one (30_encoding.md R101). -/
def pairTail : List Token → Option (List (Nat × Nat))
  | [.closeBrace] => some []
  | .comma :: .num s :: .colon :: .num n :: rest => (pairTail rest).map ((s, n) :: ·)
  | _ => none

/-- The pairs of FLOAD in their braces (30_encoding.md R101). -/
def pairsOf : List Token → Option (List (Nat × Nat))
  | [.openBrace, .closeBrace] => some []
  | .openBrace :: .num s :: .colon :: .num n :: rest => (pairTail rest).map ((s, n) :: ·)
  | _ => none

/-- A command with no operand. -/
def noOperand (c : AsmCommand) (ts : List Token) : Option AsmCommand :=
  if ts.isEmpty then some c else none

/-- A command with one operand. -/
def oneOperand (f : Nat → AsmCommand) (ts : List Token) : Option AsmCommand :=
  match operandsOf ts with
  | some [n] => some (f n)
  | _ => none

/-- A command with two operands. -/
def twoOperands (f : Nat → Nat → AsmCommand) (ts : List Token) : Option AsmCommand :=
  match operandsOf ts with
  | some [m, n] => some (f m n)
  | _ => none

/-- A pseudo-command with a text. -/
def textOperand (f : List Char → AsmCommand) (ts : List Token) : Option AsmCommand :=
  match ts with
  | [.text cs] => some (f cs)
  | _ => none

/-- The command of a mnemonic with the tokens after it: the operand list of each mnemonic is fixed
(30_encoding.md R99, R101). -/
def commandOf (name : List Char) (ts : List Token) : Option AsmCommand :=
  if name = ['N', 'O', 'P'] then noOperand .nop ts
  else if name = ['F', 'C', 'L', 'R'] then noOperand .fclr ts
  else if name = ['F', 'W', 'R'] then twoOperands .fwr ts
  else if name = ['F', 'I', 'N', 'C'] then oneOperand .finc ts
  else if name = ['F', 'R', 'D'] then oneOperand .frd ts
  else if name = ['B', 'U', 'I', 'L', 'D'] then noOperand .build ts
  else if name = ['E', 'N', 'C'] then oneOperand .enc ts
  else if name = ['D', 'E', 'C'] then noOperand .dec ts
  else if name = ['W', 'B', 'I', 'T'] then oneOperand .wbit ts
  else if name = ['W', 'F', 'L', 'U', 'S', 'H'] then noOperand .wflush ts
  else if name = ['R', 'I', 'N', 'I', 'T'] then noOperand .rinit ts
  else if name = ['R', 'B', 'I', 'T'] then noOperand .rbit ts
  else if name = ['F', 'S', 'C', 'A', 'N'] then textOperand .fscan ts
  else if name = ['F', 'L', 'O', 'A', 'D'] then (pairsOf ts).map .fload
  else if name = ['E', 'N', 'C', 'S'] then textOperand .encs ts
  else if name = ['D', 'E', 'C', 'N'] then oneOperand .decn ts
  else if name = ['W', 'B', 'I', 'T', 'S'] then textOperand .wbits ts
  else none

/-- The words of one line of source (30_encoding.md R99): a line with no command has none. `none` is
an assembly error. -/
def assembleLine (line : List Char) : Option (List Word) :=
  match tokensOf line.length line with
  | some [] => some []
  | some (.name letters :: ts) =>
    match commandOf letters ts with
    | some c => assembleWords c
    | none => none
  | _ => none

/-- The words of a source text, one command per line (30_encoding.md R99). -/
def assembleProgram (lines : List (List Char)) : Option (List Word) :=
  (allOrNone assembleLine lines).map List.flatten

/-- The host's part in running a program: it pushes the words in order (00_scope.md R7,
20_memory.md R71). -/
def scriptOf (words : List Word) : List HostAction := words.map .push

end Sys2Proof.Machine
end

