-- ==== Sys2Proof/Safety.lean ====
section
/-! DEFINITION. The terms in which claims about this core speak: the invariants the spec gives the
state (10_state.md R24, R25, R27, R28, R42), the premises of a claim about a run's output
(70_reset_and_hazards.md R266), the bits a byte stream holds (20_memory.md R62, R63), and sequences
of commands. -/

namespace Sys2Proof.Machine

/-! ### Trees (10_state.md R24) -/

/-- 10_state.md R24 (c), (d), (e), with 00_scope.md R12's leaf count: every leaf's count is a nonzero
32-bit number; every Node's count is the exact sum of its children's, and its sym is its left
child's. -/
def CodeTree.sumsOk : CodeTree → Bool
  | .leaf _ count => count != 0 && count.toNat < 2 ^ 32
  | .node sym count left right =>
    count.toNat == left.count.toNat + right.count.toNat && sym == left.sym && left.sumsOk && right.sumsOk

/-- 10_state.md R24: (a) holds by the type, (b) and (f) speak of the leaves. -/
def CodeTree.wf (t : CodeTree) : Bool :=
  t.sumsOk && decide t.leafSyms.Nodup && 1 ≤ t.leafSyms.length && t.leafSyms.length ≤ 256

/-! ### The invariants of the state -/

/-- 10_state.md R24 and R25: TS, TOTAL and NSYM agree. -/
def treeInv (s : State) : Bool :=
  match s.ts with
  | .none => s.total == 0 && s.nsym == 0
  | .empty => s.total == 0 && s.nsym == 0
  | .built t => t.wf && s.total == t.count && s.nsym.toNat == t.leafSyms.length

/-- 10_state.md R27: with `BW_CNT = k`, the bits `BW_BUF[7-k:0]` are zero. -/
def writerInv (s : State) : Prop :=
  ∀ i : Nat, i ≤ 7 - s.bwCnt.val → s.bwBuf.getLsbD i = false

/-- 10_state.md R28 and R46: until RINIT constructs the reader, it and EOS hold their reset values. -/
def readerInv (s : State) : Prop :=
  s.brInit = false → s.brBuf = 0 ∧ s.brCnt = 0 ∧ s.eos = false

/-- The "raised by" column of 60_exceptions.md R211: whether a command word can have raised a
cause. -/
def causeFits (code : BitVec 4) (w : Word) : Bool :=
  match code.toNat, decode w with
  | 1, none => true
  | 2, some (.enc _) => true
  | 2, some .dec => true
  | 3, some (.enc _) => true
  | 3, some .dec => true
  | 4, some (.enc _) => true
  | 5, some (.finc _) => true
  | 6, some .rbit => true
  | 6, some .dec => true
  | _, _ => false

/-- 10_state.md R42 and 60_exceptions.md R211: in RUN mode there is no record; in FAULTED mode the
record names a cause its command can have raised. -/
def errorInv (s : State) : Bool :=
  match s.mode with
  | .run => s.errc == 0 && s.errcmd == 0
  | .faulted => causeFits s.errc s.errcmd

/-- The invariant of the core: every step keeps it. -/
structure Inv (s : State) : Prop where
  ft     : s.ft.wf
  tree   : treeInv s = true
  writer : writerInv s
  reader : readerInv s
  error  : errorInv s = true

/-! ### Reset values, writers and causes -/

/-- Every element of the core's tuple holds its reset value (10_state.md R46, 70_reset_and_hazards.md
R250). -/
structure AtReset (s : State) : Prop where
  mode   : s.mode = .run
  ft     : ∀ sym, s.ft.read (ftIndex sym) = 0
  ts     : s.ts = .none
  total  : s.total = 0
  nsym   : s.nsym = 0
  bwBuf  : s.bwBuf = 0
  bwCnt  : s.bwCnt = 0
  brBuf  : s.brBuf = 0
  brCnt  : s.brCnt = 0
  brInit : s.brInit = false
  eos    : s.eos = false
  res    : s.res = 0
  errc   : s.errc = 0
  errcmd : s.errcmd = 0

/-- The elements of 10_state.md R46 that commands write, the streams with them; the elements one
primitive writes together stand together. -/
inductive Element where
  /-- FT. -/
  | table
  /-- TS, TOTAL and NSYM. -/
  | tree
  /-- BW_BUF, BW_CNT and BOUT. -/
  | writer
  /-- BR_BUF, BR_CNT, EOS and BIN. -/
  | reader
  /-- BR_INIT. -/
  | readerInit
  /-- RES. -/
  | result
  /-- SOUT. -/
  | symbolsOut
  deriving DecidableEq, Repr

/-- The "written by" column of 10_state.md R46 (SOUT: R32). -/
def mayWrite (i : Instr) : List Element :=
  match i with
  | .nop => []
  | .fclr => [.table]
  | .fwr _ _ => [.table]
  | .finc _ => [.table]
  | .frd _ => [.result]
  | .build => [.tree]
  | .enc _ => [.writer]
  | .dec => [.reader, .result, .symbolsOut]
  | .wbit _ => [.writer]
  | .wflush => [.writer]
  | .rinit => [.reader, .readerInit]
  | .rbit => [.reader, .result]

/-- Whether an element is the same in two states. -/
def sameElement (e : Element) (s t : State) : Prop :=
  match e with
  | .table => t.ft = s.ft
  | .tree => t.ts = s.ts ∧ t.total = s.total ∧ t.nsym = s.nsym
  | .writer => t.bwBuf = s.bwBuf ∧ t.bwCnt = s.bwCnt ∧ t.bout = s.bout
  | .reader => t.brBuf = s.brBuf ∧ t.brCnt = s.brCnt ∧ t.eos = s.eos ∧ t.bin = s.bin
  | .readerInit => t.brInit = s.brInit
  | .result => t.res = s.res
  | .symbolsOut => t.sout = s.sout

/-- The cause a word raises in RUN mode: ILLEGAL_CMD first, then the command's own checks in the
order 60_exceptions.md R217 lists them, with the conditions of R211. -/
def causeOf (w : Word) (s : State) : Option Cause :=
  match decode w with
  | none => some .illegalCmd
  | some (.enc sym) =>
    match s.ts with
    | .none => some .treeUnbuilt
    | .empty => some .treeEmpty
    | .built t => if (t.code sym).isNone then some .symAbsent else none
  | some .dec =>
    match s.ts with
    | .none => some .treeUnbuilt
    | .empty => some .treeEmpty
    | .built _ => if s.brInit then none else some .readerUninit
  | some .rbit => if s.brInit then none else some .readerUninit
  | some (.finc sym) => if s.ft.read (ftIndex sym) = Config.countMax then some .freqOverflow else none
  | some .nop => none
  | some .fclr => none
  | some (.fwr _ _) => none
  | some (.frd _) => none
  | some .build => none
  | some (.wbit _) => none
  | some .wflush => none
  | some .rinit => none

/-- The part of the state that a host action other than reset cannot change (20_memory.md R72): the
core's tuple of 10_state.md R20. -/
structure SameCore (s t : State) : Prop where
  mode   : t.mode = s.mode
  ft     : t.ft = s.ft
  ts     : t.ts = s.ts
  total  : t.total = s.total
  nsym   : t.nsym = s.nsym
  bwBuf  : t.bwBuf = s.bwBuf
  bwCnt  : t.bwCnt = s.bwCnt
  brBuf  : t.brBuf = s.brBuf
  brCnt  : t.brCnt = s.brCnt
  brInit : t.brInit = s.brInit
  eos    : t.eos = s.eos
  res    : t.res = s.res
  errc   : t.errc = s.errc
  errcmd : t.errcmd = s.errcmd

/-- The next step is the host's assertion of reset. -/
def ResetIsNext (s : State) : Prop := s.cmd = none ∧ s.host.script.head? = some .assertReset

/-! ### Bits and streams (20_memory.md R62, R63) -/

/-- The bits of a byte in stream order: bit 7 first (20_memory.md R62). -/
def byteBits (v : Byte) : List Bit := (List.range 8).map fun i => v.getLsbD (7 - i)

/-- The bits of a byte stream in order (20_memory.md R63). -/
def streamBits (bytes : List Byte) : List Bit := bytes.flatMap byteBits

/-- The bits the writer holds, the first-written first (10_state.md R27). -/
def pendingBits (s : State) : List Bit := (byteBits s.bwBuf).take s.bwCnt.val

/-- Every bit written so far and not drained: the bytes of BOUT, then the pending bits. -/
def writtenBits (s : State) : List Bit := streamBits s.bout ++ pendingBits s

/-- The bits the reader can return before a fill finds BIN empty: the rest of its buffer, then BIN
(10_state.md R28, R30). -/
def unreadBits (s : State) : List Bit := (byteBits s.brBuf).drop s.brCnt.val ++ streamBits s.bin

/-! ### The premises of a claim about a run's output (70_reset_and_hazards.md R266) -/

/-- BOUT holds every written bit. -/
def Flushed (s : State) : Prop := s.bwCnt = 0

/-- The run raised no error. -/
def NoError (s : State) : Prop := faultFlag s = false

/-- No drawn byte was used. -/
def NoDraw (s : State) : Prop := eosFlag s = false

/-! ### Codes and sequences -/

/-- The subtree a bit string leads to from the root: 0 left, 1 right (42_build.md R168). -/
def CodeTree.descend : CodeTree → List Bit → Option CodeTree
  | t, [] => some t
  | .leaf _ _, _ :: _ => none
  | .node _ _ left right, b :: bs => if b then right.descend bs else left.descend bs

/-- The concatenation of the codes of a sequence of symbols; none when one has no code
(43_encode_decode.md R181, 42_build.md R169). -/
def CodeTree.codes (t : CodeTree) : List Sym → Option (List Bit)
  | [] => some []
  | sym :: rest =>
    match t.code sym, t.codes rest with
    | some c, some cs => some (c ++ cs)
    | _, _ => none

/-- The number of bits that encode every counted symbol once for each time it is counted: the sum
over s of `F[s] × len(code(t, s))` (42_build.md R173). -/
def encodedLength (f : Memory) (t : CodeTree) : Nat :=
  (symbols.map fun sym => (f.read (ftIndex sym)).toNat * ((t.code sym).getD []).length).sum

/-- Commands one after the other, each executed to completion (20_memory.md R71). -/
def execAll : List Instr → State → Outcome
  | [], s => .next s
  | i :: rest, s =>
    match exec i s with
    | .next t => execAll rest t
    | .fault r => .fault r
    | .refused r => .refused r

/-- `n` reads by `BR_get()` (40_bitio.md R122): the bits in order, and the state after them. -/
def readBits (fill : Nat → Byte) : Nat → State → List Bit × State
  | 0, s => ([], s)
  | n + 1, s =>
    let (b, s) := brGet fill s
    let (bs, s) := readBits fill n s
    (b :: bs, s)

/-- The counts of a byte sequence: `F[s]` = the number of occurrences of s (43_encode_decode.md
R185). -/
def occurrences (text : List Sym) (sym : Sym) : Nat := text.count sym

/-- The frequency-table writes of 43_encode_decode.md R185: `FWR s, F[s]` for each s with
`F[s] > 0`. -/
def loadCounts (text : List Sym) : List Instr :=
  (symbols.filter fun sym => 0 < occurrences text sym).map fun sym =>
    .fwr sym (BitVec.ofNat 32 (occurrences text sym))

/-- The compression sequence of 43_encode_decode.md R185. -/
def compressSeq (text : List Sym) : List Instr :=
  .fclr :: text.map .finc ++ [.build] ++ text.map .enc ++ [.wflush]

/-- The decompression sequence of 43_encode_decode.md R185. -/
def decompressSeq (text : List Sym) : List Instr :=
  .fclr :: loadCounts text ++ [.build, .rinit] ++ List.replicate text.length .dec

end Sys2Proof.Machine
end

