-- ==== Sys2Proof/Certificates/Slice0/Obligations.lean ====
section
/-! DEFINITION. The statements for the provers, from the numbered rules of the spec. A statement about
a drawn byte holds for every source of draws; the core's is `Config.eosFill`, of which nothing is
known (log 2). -/

open Sys2Proof Sys2Proof.Machine

/-! ### Reset -/

/-- 70_reset_and_hazards.md R250: every element goes to its reset value, the streams stay, fault_o
falls; and the step after a word is presented is the core's, so reset cannot interrupt a command. -/
def Obligations.ResetSetsEveryElement : Prop :=
  (∀ s : State,
    AtReset (applyReset s) ∧ faultO (applyReset s) = false ∧
    (applyReset s).bin = s.bin ∧ (applyReset s).bout = s.bout ∧ (applyReset s).sout = s.sout) ∧
  (∀ (s : State) (rest : List HostAction), s.cmd = none → s.host.script = .assertReset :: rest →
    step s = .next (applyReset { s with host := { s.host with script := rest } })) ∧
  (∀ (s : State) (w : Word), s.cmd = some w → step s = coreStep w s)

/-- The state a run starts from (70_reset_and_hazards.md R253) has the reset values of 10_state.md
R46, and meets the invariant of this model. -/
def Obligations.ResetStateMeetsTheInvariant : Prop := AtReset State.reset ∧ Inv State.reset

/-! ### Encoding -/

/-- 30_encoding.md R100: the assembled word of each form. -/
def Obligations.AssembledWordOfEachForm : Prop :=
  encode .nop = 0x0000000000000000 ∧
  encode .fclr = 0x1000000000000000 ∧
  (∀ (s : Sym) (n : Count), encode (.fwr s n) = 0x11#8 ++ s ++ 0x0000#16 ++ n) ∧
  (∀ s : Sym, encode (.finc s) = 0x12#8 ++ s ++ 0x000000000000#48) ∧
  (∀ s : Sym, encode (.frd s) = 0x13#8 ++ s ++ 0x000000000000#48) ∧
  encode .build = 0x2000000000000000 ∧
  (∀ s : Sym, encode (.enc s) = 0x30#8 ++ s ++ 0x000000000000#48) ∧
  encode .dec = 0x3100000000000000 ∧
  encode (.wbit false) = 0x4000000000000000 ∧
  encode (.wbit true) = 0x4000000100000000 ∧
  encode .wflush = 0x4100000000000000 ∧
  encode .rinit = 0x5000000000000000 ∧
  encode .rbit = 0x5100000000000000

/-- Words spelled out in 30_encoding.md R96 and 95_test_vectors.md decode to what they stand for. -/
def Obligations.SpelledOutWordsDecode : Prop :=
  decode 0x0000000000000000 = some .nop ∧
  decode 0x1161000000000005 = some (.fwr 0x61 5) ∧
  decode 0x1261000000000000 = some (.finc 0x61) ∧
  decode 0x1361000000000000 = some (.frd 0x61) ∧
  decode 0x2000000000000000 = some .build ∧
  decode 0x3041000000000000 = some (.enc 0x41) ∧
  decode 0x4000000100000000 = some (.wbit true) ∧
  decode 0x4000000000000000 = some (.wbit false) ∧
  decode 0x5100000000000000 = some .rbit ∧
  decode 0xFF00000000000000 = none ∧
  decode 0x0000000000000001 = none ∧
  decode 0x1000000000000001 = none ∧
  decode 0x4000000200000000 = none ∧
  decode 0x4000000000000002 = none

/-- Decoding what was encoded gives the command back, with every operand at every value
(30_encoding.md R91, R94, R95). -/
def Obligations.DecodeOfEncodeIsTheCommand : Prop := ∀ i : Instr, decode (encode i) = some i

/-- Every command has one word: encoding what was decoded gives the word back (30_encoding.md R93,
R97). This is why ERRCMD can be the word of the command (log 11). -/
def Obligations.EncodeOfDecodeIsTheWord : Prop :=
  ∀ (w : Word) (i : Instr), decode w = some i → encode i = w

/-- 30_encoding.md R95: the decoder's rows, its operands, that at most one row matches, and what
executing ILLEGAL raises. -/
def Obligations.DecodeFindsTheOneMatchingRow : Prop :=
  (∀ (w : Word) (i : Instr), decode w = some i ↔
    ∃ r ∈ opcodeMap, (w &&& r.mask) = r.pattern ∧
      i = r.command (w.extractLsb' 48 8) (w.getLsbD 32) (w.extractLsb' 0 32)) ∧
  (∀ w : Word, decode w = none ↔ ∀ r ∈ opcodeMap, (w &&& r.mask) ≠ r.pattern) ∧
  opcodeMap.Pairwise (fun r r' => ∀ w : Word, ¬ ((w &&& r.mask) = r.pattern ∧ (w &&& r'.mask) = r'.pattern)) ∧
  (∀ (s : State) (w : Word), s.mode = .run → s.cmd = some w → decode w = none →
    step s = .next (raiseError .illegalCmd w (acceptWord s)))

/-- 30_encoding.md R96: the illegal words are those with an unassigned OPC, a nonzero RSV or a nonzero
field that the opcode does not use; 244 OPC values are unassigned; each raises ILLEGAL_CMD. -/
def Obligations.IllegalWordsAreTheIllFormedOnes : Prop :=
  (∀ w : Word, decode w = none ↔
    usesOf (opcOf w) = none ∨
      ∃ u, usesOf (opcOf w) = some u ∧
        (rsvOf w ≠ 0 ∨ (u.sym = false ∧ symOf w ≠ 0) ∨ (u.b = false ∧ bOf w = true) ∨
          (u.imm = false ∧ immOf w ≠ 0))) ∧
  (∀ n : Nat, n < 256 → (usesOf (BitVec.ofNat 8 n) = none ↔
    (0x01 ≤ n ∧ n ≤ 0x0F) ∨ (0x14 ≤ n ∧ n ≤ 0x1F) ∨ (0x21 ≤ n ∧ n ≤ 0x2F) ∨ (0x32 ≤ n ∧ n ≤ 0x3F) ∨
      (0x42 ≤ n ∧ n ≤ 0x4F) ∨ 0x52 ≤ n)) ∧
  ((List.range 256).countP fun n => (usesOf (BitVec.ofNat 8 n)).isNone) = 244 ∧
  decode 0x0000000000000001 = none ∧ decode 0x4000000000000002 = none ∧
  (∀ (s : State) (w : Word), s.mode = .run → s.cmd = some w → decode w = none →
    ∃ t, step s = .next t ∧ t.errc = 1 ∧ t.errcmd = w ∧ t.mode = .faulted)

/-! ### The step -/

/-- A step with a word at the port that decodes to `i` is `exec i` after the word is accepted: the
port is empty and the position one further, nothing else (20_memory.md R71, 10_state.md R37). -/
def Obligations.StepExecutesThePresentedCommand : Prop :=
  ∀ (s : State) (w : Word) (i : Instr), s.cmd = some w → decode w = some i →
    step s = exec i { s with cmd := none, pos := s.pos + 1 }

/-- 44_system.md R201: an illegal word raises ILLEGAL_CMD in RUN mode and is discarded in FAULTED
mode. -/
def Obligations.IllegalWordRaisesIllegalCmd : Prop :=
  ∀ (s : State) (w : Word), s.cmd = some w → decode w = none →
    (s.mode = .run → step s = .next
      { s with cmd := none, pos := s.pos + 1, errc := 1, errcmd := w, mode := .faulted }) ∧
    (s.mode = .faulted → step s = .next { s with cmd := none, pos := s.pos + 1 })

/-- 60_exceptions.md R215: in FAULTED mode every word is accepted and discarded, whatever it is, and
only reset leaves the mode. -/
def Obligations.FaultedDiscardsEveryWord : Prop :=
  (∀ (s : State) (w : Word), s.mode = .faulted → s.cmd = some w →
    step s = .next { s with cmd := none, pos := s.pos + 1 }) ∧
  (∀ (s : State) (i : Instr), s.mode = .faulted → exec i s = .next s) ∧
  (∀ s t : State, s.mode = .faulted → step s = .next t → ¬ ResetIsNext s → SameCore s t) ∧
  (∀ s t : State, step s = .next t → ResetIsNext s → t.mode = .run)

/-- 10_state.md R37: every word, one that errors or is discarded too, advances the position by one;
none changes what the host does next. -/
def Obligations.EveryWordAdvancesThePosition : Prop :=
  ∀ (s : State) (w : Word), s.cmd = some w →
    ∃ t, step s = .next t ∧ t.pos = s.pos + 1 ∧ t.cmd = none ∧ t.host = s.host

/-- With no word presented and no host action left, the core idles and keeps all its state
(60_exceptions.md R226, 70_reset_and_hazards.md R266). That this is a step of the model is its
choice (log 5). -/
def Obligations.IdleKeepsAllState : Prop :=
  ∀ s : State, s.cmd = none → s.host.script = [] → step s = .next s

/-- What each host action does, that it comes only between commands, and that none but reset and a
pushed command can change the core (20_memory.md R72). A removal is stated for bytes that are there.
Three clauses are the model's choice and no rule of the spec: that no host action, reset among them,
moves the position (logs 6 and 18), that reset leaves the port as it is (log 18), and that the bytes
removed and the values read go to lists of the host's (log 8). -/
def Obligations.HostActionsTouchOnlyTheirPart : Prop :=
  ∀ (s : State) (a : HostAction) (rest : List HostAction), s.host.script = a :: rest →
    (∀ w, s.cmd = some w → ∀ t, step s = .next t → t.host = s.host) ∧
    (s.cmd = none → ∃ t, step s = .next t ∧ t.host.script = rest ∧ t.pos = s.pos ∧
      (a ≠ .assertReset → SameCore s t) ∧
      (∀ w, a = .push w → t.cmd = some w ∧ t.bin = s.bin ∧ t.bout = s.bout ∧ t.sout = s.sout) ∧
      (∀ bytes, a = .appendBin bytes →
        t.bin = s.bin ++ bytes ∧ t.bout = s.bout ∧ t.sout = s.sout ∧ t.cmd = none) ∧
      (∀ n, a = .drainBout n → n ≤ s.bout.length →
        ∃ taken, taken.length = n ∧ s.bout = taken ++ t.bout ∧
          t.host.fromBout = s.host.fromBout ++ taken ∧ t.bin = s.bin ∧ t.sout = s.sout ∧ t.cmd = none) ∧
      (∀ n, a = .drainSout n → n ≤ s.sout.length →
        ∃ taken, taken.length = n ∧ s.sout = taken ++ t.sout ∧
          t.host.fromSout = s.host.fromSout ++ taken ∧ t.bin = s.bin ∧ t.bout = s.bout ∧ t.cmd = none) ∧
      (∀ idx, a = .readReg idx → t.bin = s.bin ∧ t.bout = s.bout ∧ t.sout = s.sout ∧ t.cmd = none ∧
        t.host.reads = s.host.reads ++ [(idx, readReg idx s)]) ∧
      (a = .assertReset → AtReset t ∧ t.bin = s.bin ∧ t.bout = s.bout ∧ t.sout = s.sout ∧ t.cmd = none))

/-! ### The register port -/

/-- 10_state.md R40 with R38: the register map; a read returns the value and changes nothing of the
core, and no action of the host but reset changes a register. That the value goes to a list of the
host's is the model's choice (log 8). -/
def Obligations.RegisterMapValues : Prop :=
  ∀ s : State,
    (∀ idx : RegIndex, hostAct (.readReg idx) s =
      { s with host := { s.host with reads := s.host.reads ++ [(idx, readReg idx s)] } }) ∧
    (∀ a : HostAction, a ≠ .assertReset → ∀ idx : RegIndex, readReg idx (hostAct a s) = readReg idx s) ∧
    readReg 0x00 s = 0x48554646 ∧
    readReg 0x01 s = 0x00000001 ∧
    readReg 0x02 s = statusWord s ∧
    readReg 0x03 s = s.errc.setWidth 32 ∧
    readReg 0x04 s = s.errcmd.extractLsb' 0 32 ∧
    readReg 0x05 s = s.errcmd.extractLsb' 32 32 ∧
    readReg 0x06 s = s.res ∧
    readReg 0x07 s = s.total.extractLsb' 0 32 ∧
    readReg 0x08 s = (s.total.extractLsb' 32 8).setWidth 32 ∧
    readReg 0x09 s = s.nsym.setWidth 32 ∧
    readReg 0x0A s = bwStateWord s ∧
    readReg 0x0B s = brStateWord s ∧
    readReg 0x0C s = 0x00FF0120 ∧
    (readReg 0x0C s).extractLsb' 0 8 = 0x20 ∧ (readReg 0x0C s).extractLsb' 8 8 = 0x01 ∧
    (readReg 0x0C s).extractLsb' 16 8 = 0xFF ∧
    [(readReg 0x00 s).extractLsb' 24 8, (readReg 0x00 s).extractLsb' 16 8,
      (readReg 0x00 s).extractLsb' 8 8, (readReg 0x00 s).extractLsb' 0 8]
      = ['H', 'U', 'F', 'F'].map fun c => BitVec.ofNat 8 c.toNat

/-- 10_state.md R39: unmapped indices read 0, and so do the reserved bits. -/
def Obligations.UnmappedIndicesAndReservedBitsReadZero : Prop :=
  ∀ s : State,
    (∀ idx : RegIndex, 0x0D ≤ idx.toNat → readReg idx s = 0) ∧
    (readReg 0x02 s).extractLsb' 6 26 = 0 ∧
    (readReg 0x03 s).extractLsb' 4 28 = 0 ∧
    (readReg 0x0A s).extractLsb' 11 21 = 0 ∧
    (readReg 0x0B s).extractLsb' 12 20 = 0

/-- 10_state.md R41: the fields of STATUS. -/
def Obligations.StatusFields : Prop :=
  ∀ s : State,
    ((statusWord s).getLsbD 0 = true ↔ s.mode = .faulted) ∧
    (s.ts = .none → (statusWord s).extractLsb' 1 2 = 0b00) ∧
    (s.ts = .empty → (statusWord s).extractLsb' 1 2 = 0b01) ∧
    (∀ t, s.ts = .built t → (statusWord s).extractLsb' 1 2 = 0b10) ∧
    (statusWord s).extractLsb' 1 2 ≠ 0b11 ∧
    ((statusWord s).getLsbD 3 = true ↔ ∃ sym count, s.ts = .built (.leaf sym count)) ∧
    (statusWord s).getLsbD 4 = s.brInit ∧
    (statusWord s).getLsbD 5 = s.eos ∧
    (statusWord s).extractLsb' 6 26 = 0

/-- 10_state.md R43: the fields of BWSTATE and BRSTATE. -/
def Obligations.WriterAndReaderStateFields : Prop :=
  ∀ s : State,
    (bwStateWord s).extractLsb' 0 8 = s.bwBuf ∧
    ((bwStateWord s).extractLsb' 8 3).toNat = s.bwCnt.val ∧
    (bwStateWord s).extractLsb' 11 21 = 0 ∧
    (brStateWord s).extractLsb' 0 8 = s.brBuf ∧
    ((brStateWord s).extractLsb' 8 4).toNat = s.brCnt.val ∧
    (brStateWord s).extractLsb' 12 20 = 0

/-- 60_exceptions.md R216: fault_o is 1 exactly in FAULTED mode and equals STATUS.FAULT; it rises when
a command raises an error and falls only at reset. -/
def Obligations.FaultOutputFollowsTheMode : Prop :=
  (∀ s : State, (faultO s = true ↔ s.mode = .faulted) ∧ faultO s = (statusWord s).getLsbD 0) ∧
  (∀ s t : State, faultO s = false → step s = .next t → faultO t = true →
    ∃ w c, s.cmd = some w ∧ t = raiseError c w (acceptWord s)) ∧
  (∀ s t : State, faultO s = true → step s = .next t → faultO t = false → ResetIsNext s)

/-! ### The commands -/

/-- 44_system.md R200. -/
def Obligations.NopChangesNothing : Prop :=
  decode 0x0000000000000000 = some .nop ∧ decode 0x0000000000000001 = none ∧
  ∀ s : State, exec .nop s = .next s

/-- 41_frequency.md R140. -/
def Obligations.FclrClearsTheTable : Prop :=
  decode 0x1000000000000000 = some .fclr ∧
  (∀ s : State, s.mode = .run →
    ∃ m, exec .fclr s = .next { s with ft := m } ∧ ∀ a, m.read a = 0) ∧
  exec .fclr State.reset = .next State.reset

/-- 41_frequency.md R141: one entry changes; a count of 0 leaves the symbol without a leaf. -/
def Obligations.FwrWritesOneEntry : Prop :=
  ∀ (sym : Sym) (n : Count),
    decode (0x11#8 ++ sym ++ 0x0000#16 ++ n) = some (.fwr sym n) ∧
    ∀ s : State, s.mode = .run →
      ∃ m, exec (.fwr sym n) s = .next { s with ft := m } ∧
        m.read (ftIndex sym) = n ∧ (∀ a, a ≠ ftIndex sym → m.read a = s.ft.read a) ∧
        (n = 0 → ∀ leaf ∈ leavesOf m, leaf.sym ≠ sym)

/-- 41_frequency.md R142: the entry grows by one and never wraps; at the 32-bit maximum the command
raises FREQ_OVERFLOW and FT stays. -/
def Obligations.FincCountsOneOccurrence : Prop :=
  ∀ sym : Sym,
    decode (0x12#8 ++ sym ++ 0x000000000000#48) = some (.finc sym) ∧
    ∀ s : State, s.mode = .run →
      (s.ft.read (ftIndex sym) ≠ 0xFFFFFFFF →
        ∃ m, exec (.finc sym) s = .next { s with ft := m } ∧
          (m.read (ftIndex sym)).toNat = (s.ft.read (ftIndex sym)).toNat + 1 ∧
          ∀ a, a ≠ ftIndex sym → m.read a = s.ft.read a) ∧
      (s.ft.read (ftIndex sym) = 0xFFFFFFFF →
        exec (.finc sym) s = .next
          { s with errc := 5, errcmd := 0x12#8 ++ sym ++ 0x000000000000#48, mode := .faulted })

/-- 41_frequency.md R143. -/
def Obligations.FrdReadsOneEntry : Prop :=
  ∀ sym : Sym,
    decode (0x13#8 ++ sym ++ 0x000000000000#48) = some (.frd sym) ∧
    ∀ s : State, s.mode = .run →
      exec (.frd sym) s = .next { s with res := s.ft.read (ftIndex sym) }

/-- 42_build.md R166: TS, TOTAL and NSYM from the whole table, the two sums exact, the flags that
follow, and nothing else; with the rule's example. `buildTree` is `BuildTree` of R165. -/
def Obligations.BuildComputesTreeTotalAndNsym : Prop :=
  decode 0x2000000000000000 = some .build ∧
  buildTree [(0x61, 3), (0x62, 1), (0x63, 1)] =
    some (.node 0x63 5 (.node 0x63 2 (.leaf 0x63 1) (.leaf 0x62 1)) (.leaf 0x61 3)) ∧
  ∀ s : State, s.mode = .run →
    ∃ t : State, exec .build s = .next t ∧
      t = { s with ts := t.ts, total := t.total, nsym := t.nsym } ∧
      (buildTree s.ft = none → t.ts = .empty) ∧
      (∀ r, buildTree s.ft = some r → t.ts = .built r) ∧
      t.total.toNat = (symbols.map fun sym => (s.ft.read (ftIndex sym)).toNat).sum ∧
      t.nsym.toNat = symbols.countP (fun sym => s.ft.read (ftIndex sym) != 0) ∧
      ((∀ sym : Sym, s.ft.read (ftIndex sym) = 0) ↔ t.ts = .empty) ∧
      (t.ts = .empty → treeField t = 0b01 ∧ t.total = 0 ∧ t.nsym = 0) ∧
      (t.ts ≠ .empty → treeField t = 0b10) ∧
      (singleFlag t = true ↔ ∃ sym count, buildTree s.ft = some (.leaf sym count))

/-- 43_encode_decode.md R180: the three errors in their order, each with no bit written; else the bits
of the code follow the bits written before, and nothing else changes. The writer meets R27. -/
def Obligations.EncWritesTheCodeOfItsSymbol : Prop :=
  ∀ sym : Sym,
    decode (0x30#8 ++ sym ++ 0x000000000000#48) = some (.enc sym) ∧
    ∀ s : State, s.mode = .run →
      (s.ts = .none → exec (.enc sym) s = .next
        { s with errc := 2, errcmd := 0x30#8 ++ sym ++ 0x000000000000#48, mode := .faulted }) ∧
      (s.ts = .empty → exec (.enc sym) s = .next
        { s with errc := 3, errcmd := 0x30#8 ++ sym ++ 0x000000000000#48, mode := .faulted }) ∧
      (∀ t, s.ts = .built t → t.code sym = none → exec (.enc sym) s = .next
        { s with errc := 4, errcmd := 0x30#8 ++ sym ++ 0x000000000000#48, mode := .faulted }) ∧
      (∀ t c, s.ts = .built t → t.code sym = some c → writerInv s →
        ∃ buf cnt emitted,
          exec (.enc sym) s = .next { s with bwBuf := buf, bwCnt := cnt, bout := s.bout ++ emitted } ∧
          writerInv { s with bwBuf := buf, bwCnt := cnt, bout := s.bout ++ emitted } ∧
          writtenBits { s with bwBuf := buf, bwCnt := cnt, bout := s.bout ++ emitted }
            = writtenBits s ++ c)

/-- 43_encode_decode.md R181: an ENC writes between 1 and 255 bits; a sequence of ENC commands writes
the concatenation of their codes; after k bits from an empty writer, floor(k / 8) bytes have been
emitted and BW_CNT = k mod 8. -/
def Obligations.EncSequenceWritesTheConcatenation : Prop :=
  (∀ (t : CodeTree) (sym : Sym) (c : List Bit), t.wf = true → t.code sym = some c →
    1 ≤ c.length ∧ c.length ≤ 255) ∧
  ∀ (s : State) (t : CodeTree) (syms : List Sym) (cs : List Bit),
    s.mode = .run → s.ts = .built t → t.codes syms = some cs → writerInv s →
    ∃ s', execAll (syms.map .enc) s = .next s' ∧
      writtenBits s' = writtenBits s ++ cs ∧
      (s.bwCnt = 0 → s'.bout.length = s.bout.length + cs.length / 8 ∧ s'.bwCnt.val = cs.length % 8)

/-- 43_encode_decode.md R182: the three errors in their order, each with no bit read; else the bits
read, first to last, are a path from the root to a leaf, and that leaf's symbol goes to RES and SOUT.
A single leaf takes one bit of any value. `readBits` is `BR_get` so many times (40_bitio.md R122). -/
def Obligations.DecReturnsTheLeafItsBitsSelect : Prop :=
  decode 0x3100000000000000 = some .dec ∧
  ∀ (fill : Nat → Byte) (s : State), s.mode = .run →
    (s.ts = .none → execDecWith fill s = .next
      { s with errc := 2, errcmd := 0x3100000000000000, mode := .faulted }) ∧
    (s.ts = .empty → execDecWith fill s = .next
      { s with errc := 3, errcmd := 0x3100000000000000, mode := .faulted }) ∧
    (∀ t, s.ts = .built t → s.brInit = false → execDecWith fill s = .next
      { s with errc := 6, errcmd := 0x3100000000000000, mode := .faulted }) ∧
    (∀ sym count, s.ts = .built (.leaf sym count) → s.brInit = true →
      execDecWith fill s = .next { (readBits fill 1 s).2 with
        res := sym.setWidth 32, sout := s.sout ++ [sym] }) ∧
    (∀ nsym ncount left right, s.ts = .built (.node nsym ncount left right) → s.brInit = true →
      ∃ n sym count, (CodeTree.node nsym ncount left right).descend (readBits fill n s).1
          = some (.leaf sym count) ∧
        execDecWith fill s = .next { (readBits fill n s).2 with
          res := sym.setWidth 32, sout := s.sout ++ [sym] }) ∧
    (s.brInit = true → ∀ n, ∃ buf cnt bin eos draws, (readBits fill n s).2 =
      { s with brBuf := buf, brCnt := cnt, bin := bin, eos := eos, draws := draws }) ∧
    (∀ t, s.ts = .built t → s.brInit = true → ∃ n sym, sym ∈ t.leafSyms ∧
      exec .dec s = .next { (readBits Config.eosFill n s).2 with
        res := sym.setWidth 32, sout := s.sout ++ [sym] }) ∧
    exec .dec s = execDecWith Config.eosFill s

/-- 43_encode_decode.md R183: DEC completes, having read at least 1 and at most depth(t) bits, and
exactly 1 under a single leaf; every bit sequence reaches a leaf within 255 reads. -/
def Obligations.DecReadsAtMostDepthBits : Prop :=
  (∀ (fill : Nat → Byte) (s : State) (t : CodeTree), s.mode = .run → s.ts = .built t → s.brInit = true →
    ∃ n s', execDecWith fill s = .next s' ∧ 1 ≤ n ∧ n ≤ max 1 t.depth ∧
      (t.depth = 0 → n = 1) ∧ s' = { (readBits fill n s).2 with res := s'.res, sout := s'.sout }) ∧
  (∀ (t : CodeTree) (bits : List Bit), t.wf = true → bits.length = 255 →
    ∃ n sym count, n ≤ 255 ∧ t.descend (bits.take n) = some (.leaf sym count))

/-- 43_encode_decode.md R184: whatever the bits, DEC returns the symbol of a leaf and raises no error;
and when the unread bits lead to a node of the tree and every later bit is drawn, every leaf below
that node is a possible result. -/
def Obligations.EveryLeafBelowADrawnNodeIsPossible : Prop :=
  (∀ (fill : Nat → Byte) (s : State) (t : CodeTree), s.mode = .run → s.ts = .built t → s.brInit = true →
    ∃ sym s', sym ∈ t.leafSyms ∧ execDecWith fill s = .next s' ∧ s'.mode = .run ∧
      s'.res = sym.setWidth 32 ∧ s'.sout = s.sout ++ [sym]) ∧
  ∀ (s : State) (t below : CodeTree) (sym : Sym), s.mode = .run → s.ts = .built t → s.brInit = true →
    t.descend (unreadBits s) = some below → sym ∈ below.leafSyms →
    ∃ fill s', execDecWith fill s = .next s' ∧ s'.mode = .run ∧ s'.res = sym.setWidth 32 ∧
      s'.sout = s.sout ++ [sym]

/-- 40_bitio.md R124 with R120: the bit goes to bit number 7 - BW_CNT, the eighth bit emits the byte,
and nothing else changes. -/
def Obligations.WbitAppendsOneBit : Prop :=
  ∀ b : Bit,
    decode (0x40#8 ++ 0#23 ++ BitVec.ofBool b ++ 0x00000000#32) = some (.wbit b) ∧
    ∀ s : State, s.mode = .run →
      ∃ buf, (∀ i, buf.getLsbD i = (s.bwBuf.getLsbD i || (decide (i = 7 - s.bwCnt.val) && b))) ∧
        (s.bwCnt.val = 7 → exec (.wbit b) s = .next
          { s with bwBuf := 0, bwCnt := 0, bout := s.bout ++ [buf] }) ∧
        (s.bwCnt.val < 7 → ∃ cnt, cnt.val = s.bwCnt.val + 1 ∧
          exec (.wbit b) s = .next { s with bwBuf := buf, bwCnt := cnt }) ∧
        (writerInv s → ∃ t, exec (.wbit b) s = .next t ∧ writtenBits t = writtenBits s ++ [b])

/-- 40_bitio.md R125 with R123: a pending partial byte is emitted with zeros below its bits; with none
pending nothing is emitted; the writer is empty after it, and a second WFLUSH does nothing. -/
def Obligations.WflushEmitsThePendingByte : Prop :=
  decode 0x4100000000000000 = some .wflush ∧
  ∀ s : State, s.mode = .run →
    (0 < s.bwCnt.val → exec .wflush s = .next
      { s with bwBuf := 0, bwCnt := 0, bout := s.bout ++ [s.bwBuf] }) ∧
    (s.bwCnt.val = 0 → exec .wflush s = .next { s with bwBuf := 0, bwCnt := 0 }) ∧
    (s.bwCnt.val = 0 → writerInv s → exec .wflush s = .next s) ∧
    (0 < s.bwCnt.val → writerInv s → ∃ t, exec .wflush s = .next t ∧
      streamBits t.bout = writtenBits s ++ List.replicate (8 - s.bwCnt.val) false)

/-- 40_bitio.md R126 with R121: one byte of BIN, or a drawn byte and EOS when BIN is empty; BR_INIT is
set, and nothing else changes. -/
def Obligations.RinitConstructsTheReader : Prop :=
  decode 0x5000000000000000 = some .rinit ∧
  ∀ s : State, s.mode = .run →
    (∀ byte rest, s.bin = byte :: rest → exec .rinit s = .next
      { s with bin := rest, brBuf := byte, brCnt := 0, brInit := true }) ∧
    (∀ fill, s.bin = [] → execRinitWith fill s = .next
      { s with brBuf := fill s.draws, draws := s.draws + 1, eos := true, brCnt := 0, brInit := true }) ∧
    exec .rinit s = execRinitWith Config.eosFill s

/-- 40_bitio.md R127 with R121 and R122: READER_UNINIT before RINIT; else the next bit of the buffer,
after a fill when all 8 bits are consumed, from BIN or, when BIN is empty, drawn with EOS. -/
def Obligations.RbitReturnsTheNextBit : Prop :=
  decode 0x5100000000000000 = some .rbit ∧
  ∀ s : State, s.mode = .run →
    (s.brInit = false → exec .rbit s = .next
      { s with errc := 6, errcmd := 0x5100000000000000, mode := .faulted }) ∧
    (s.brInit = true → s.brCnt.val < 8 → ∃ cnt, cnt.val = s.brCnt.val + 1 ∧ exec .rbit s = .next
      { s with res := zextBit32 (s.brBuf.getLsbD (7 - s.brCnt.val)), brCnt := cnt }) ∧
    (∀ byte rest, s.brInit = true → s.brCnt.val = 8 → s.bin = byte :: rest → exec .rbit s = .next
      { s with res := zextBit32 (byte.getLsbD 7), brBuf := byte, brCnt := 1, bin := rest }) ∧
    (∀ fill, s.brInit = true → s.brCnt.val = 8 → s.bin = [] → execRbitWith fill s = .next
      { s with res := zextBit32 ((fill s.draws).getLsbD 7), brBuf := fill s.draws, brCnt := 1,
               eos := true, draws := s.draws + 1 }) ∧
    exec .rbit s = execRbitWith Config.eosFill s

/-! ### The whole machine -/

/-- 60_exceptions.md R212: a word that raises a cause writes ERRC, ERRCMD (the very word) and MODE, and
nothing else of the state it met. -/
def Obligations.ErrorsArePreciseAtEveryStep : Prop :=
  ∀ (s t : State) (w : Word), s.mode = .run → s.cmd = some w → step s = .next t → t.mode = .faulted →
    ∃ c : Cause, causeOf w s = some c ∧
      t = { s with errc := c.code, errcmd := w, mode := .faulted, cmd := none, pos := s.pos + 1 }

/-- 60_exceptions.md R217: FAULTED first, then ILLEGAL_CMD, then the command's own checks in their
order (`causeOf`); exactly that one cause is recorded, and with no cause there is no error. -/
def Obligations.TheFirstCauseInOrderIsRecorded : Prop :=
  ∀ (s : State) (w : Word), s.cmd = some w →
    (s.mode = .faulted → step s = .next { s with cmd := none, pos := s.pos + 1 }) ∧
    (s.mode = .run → ∀ c, causeOf w s = some c → step s = .next
      { s with errc := c.code, errcmd := w, mode := .faulted, cmd := none, pos := s.pos + 1 }) ∧
    (s.mode = .run → causeOf w s = none → ∃ t, step s = .next t ∧ t.mode = .run ∧
      t.errc = s.errc ∧ t.errcmd = s.errcmd)

/-- Every command completes in every state: no command of this core is a stop
(70_reset_and_hazards.md R265, 93_implementation_defined.md). -/
def Obligations.EveryCommandCompletes : Prop :=
  (∀ (i : Instr) (s : State), ∃ t, exec i s = .next t) ∧ (∀ s : State, ∃ t, step s = .next t)

/-- 10_state.md R46: the reset values, the only commands that write each element, what reset leaves,
and the constants. An element that no command of its list wrote is as it was. -/
def Obligations.OnlyListedCommandsWriteEachElement : Prop :=
  (∀ s : State, AtReset (applyReset s) ∧
    (applyReset s).bin = s.bin ∧ (applyReset s).bout = s.bout ∧ (applyReset s).sout = s.sout) ∧
  (∀ (i : Instr) (s t : State), exec i s = .next t →
    (∀ e : Element, e ∉ mayWrite i → sameElement e s t) ∧
    ((t.mode = s.mode ∧ t.errc = s.errc ∧ t.errcmd = s.errcmd) ∨
      ∃ c, s.mode = .run ∧ t = raiseError c (encode i) s) ∧
    t.cmd = s.cmd ∧ t.pos = s.pos ∧ t.host = s.host) ∧
  (∀ s : State, readReg 0x00 s = 0x48554646 ∧ readReg 0x01 s = 0x00000001 ∧
    readReg 0x0C s = 0x00FF0120)

/-- A core step takes bytes only off the front of BIN, and only appends to BOUT and SOUT (10_state.md
R30, R31, R32). -/
def Obligations.StreamsMoveOneWay : Prop :=
  ∀ (s t : State) (w : Word), s.cmd = some w → step s = .next t →
    t.bin <:+ s.bin ∧ s.bout <+: t.bout ∧ s.sout <+: t.sout

/-- NOP, FCLR, FWR, FRD, BUILD and WFLUSH executed twice in a row leave the same state as once
(20_memory.md R69). -/
def Obligations.IdempotentCommands : Prop :=
  ∀ (i : Instr) (s t : State),
    (i = .nop ∨ i = .fclr ∨ (∃ sym n, i = .fwr sym n) ∨ (∃ sym, i = .frd sym) ∨ i = .build ∨
      i = .wflush) →
    exec i s = .next t → exec i t = .next t

/-- EOS is sticky, only reset clears it, and no command's effect depends on it (10_state.md R29). -/
def Obligations.EosIsStickyAndUnread : Prop :=
  (∀ s t : State, s.eos = true → step s = .next t → ¬ ResetIsNext s → t.eos = true) ∧
  (∀ (i : Instr) (s t : State), exec i s = .next t →
    exec i { s with eos := true } = .next { t with eos := true })

/-- The only influence of a drawn byte shows in EOS: a run of RINIT, RBIT or DEC that ends with EOS = 0
is the same for every source of draws (40_bitio.md R121, 70_reset_and_hazards.md R266). -/
def Obligations.DrawsMatterOnlyWithEos : Prop :=
  ∀ (f g : Nat → Byte) (s t : State), t.eos = false →
    (execRinitWith f s = .next t → execRinitWith g s = .next t) ∧
    (execRbitWith f s = .next t → execRbitWith g s = .next t) ∧
    (execDecWith f s = .next t → execDecWith g s = .next t)

/-- Every step keeps the invariant: FT in canonical form with indices below 256; the tree, TOTAL and
NSYM as 10_state.md R24 and R25; the writer as R27; the reader as R28; the error record as R42 and
60_exceptions.md R211. -/
def Obligations.StepKeepsTheInvariant : Prop :=
  ∀ s t : State, Inv s → step s = .next t → Inv t

/-! ### The tree -/

/-- `higher` is irreflexive and transitive, and total on nodes with different symbols; nodes equal in
both are unordered (42_build.md R160, R161). -/
def Obligations.HigherIsAStrictOrder : Prop :=
  (∀ a : CodeTree, higher a a = false) ∧
  (∀ a b c : CodeTree, higher a b = true → higher b c = true → higher a c = true) ∧
  (∀ a b : CodeTree, a.sym ≠ b.sym → (higher a b = true ∧ higher b a = false) ∨
    (higher a b = false ∧ higher b a = true)) ∧
  (∀ a b : CodeTree, a.sym = b.sym → a.count = b.count → higher a b = false ∧ higher b a = false)

/-- 42_build.md R162: on a nonempty collection with pairwise distinct symbols the extracted node has
higher priority than every other node, the rest is the collection without it, and the insertion
order does not matter. -/
def Obligations.HighestIsTheUniqueFirst : Prop :=
  ∀ q : List CodeTree, q ≠ [] → (q.map CodeTree.sym).Nodup →
    ∃ x r, extractHighest q = some (x, r) ∧ q.Perm (x :: r) ∧ (∀ y ∈ r, higher x y = true) ∧
      ∀ q', q.Perm q' → ∃ r', extractHighest q' = some (x, r') ∧ r.Perm r'

/-- The tree does not depend on the order in which the nodes stand in the collection (42_build.md
R162, R164, R172). -/
def Obligations.BuildIgnoresInsertionOrder : Prop :=
  ∀ q q' : List CodeTree, (q.map CodeTree.sym).Nodup → q.Perm q' → buildFrom q = buildFrom q'

/-- 42_build.md R163: one leaf for each symbol with a nonzero frequency, and no other. -/
def Obligations.LeavesAreTheCountedSymbols : Prop :=
  ∀ f : Memory,
    (∀ x : CodeTree, x ∈ leavesOf f ↔
      ∃ sym : Sym, f.read (ftIndex sym) ≠ 0 ∧ x = .leaf sym ((f.read (ftIndex sym)).setWidth 40)) ∧
    ((leavesOf f).map CodeTree.sym).Nodup

/-- 42_build.md R165: EMPTY from the empty collection, the node itself from one node, and from more
the tree of the collection in which the two highest are merged, the first of them on the left and
its symbol on top; the merged count is the exact sum in every tree built from a table. -/
def Obligations.BuildMergesTheTwoHighest : Prop :=
  (∀ f : Memory, buildTree f = buildFrom (leavesOf f)) ∧
  buildFrom [] = none ∧
  (∀ t : CodeTree, buildFrom [t] = some t) ∧
  (∀ (q q₁ q₂ : List CodeTree) (a b : CodeTree), extractHighest q = some (a, q₁) →
    extractHighest q₁ = some (b, q₂) →
    buildFrom q = buildFrom (.node a.sym (a.count + b.count) a b :: q₂)) ∧
  (∀ (f : Memory) (t : CodeTree), buildTree f = some t → t.sumsOk = true)

/-- A built tree satisfies 10_state.md R24; its leaves are exactly Leaves(F) of 42_build.md R163, its
count is TOTAL (10_state.md R25), and EMPTY comes from the all-zero table only. No command puts a
tree into TS that breaks R24. -/
def Obligations.BuiltTreesAreWellFormed : Prop :=
  (∀ (f : Memory) (t : CodeTree), buildTree f = some t →
    t.wf = true ∧ t.leaves.Perm (leavesOf f) ∧ t.count = totalOf f ∧
    (nsymOf f).toNat = t.leafSyms.length) ∧
  (∀ f : Memory, buildTree f = none ↔ ∀ sym : Sym, f.read (ftIndex sym) = 0) ∧
  (∀ (i : Instr) (s s' : State) (t : CodeTree), exec i s = .next s' → s'.ts = .built t →
    s.ts = .built t ∨ t.wf = true)

/-- 42_build.md R167: exactly one nonzero entry gives a single leaf, STATUS.SINGLE, and the one-bit
code 0; the decoder takes one bit of either value. -/
def Obligations.SingleSymbolAlphabet : Prop :=
  ∀ (s : State) (sym : Sym), s.mode = .run → s.ft.read (ftIndex sym) ≠ 0 →
    (∀ other : Sym, other ≠ sym → s.ft.read (ftIndex other) = 0) →
    ∃ t : State, exec .build s = .next t ∧
      t.ts = .built (.leaf sym ((s.ft.read (ftIndex sym)).setWidth 40)) ∧
      (statusWord t).getLsbD 3 = true ∧
      (CodeTree.leaf sym ((s.ft.read (ftIndex sym)).setWidth 40)).code sym = some [false] ∧
      (s.brInit = true → ∀ b rest, unreadBits s = b :: rest →
        ∃ t', exec .dec t = .next t' ∧ t'.res = sym.setWidth 32 ∧ unreadBits t' = rest)

/-- 42_build.md R169: no code is a prefix of another, and a concatenation of codes has exactly one
parse. -/
def Obligations.CodesArePrefixFree : Prop :=
  ∀ t : CodeTree, t.wf = true →
    (∀ (a b : Sym) (ca cb : List Bit), t.code a = some ca → t.code b = some cb → a ≠ b →
      ¬ ca <+: cb) ∧
    (∀ (x y : List Sym) (cs : List Bit), t.codes x = some cs → t.codes y = some cs → x = y)

/-- 42_build.md R170: a built tree with n leaves has n - 1 Nodes and depth at most n - 1; its codes
have between 1 and 255 bits; its count is TOTAL, at most 256 × (2^32 − 1). -/
def Obligations.SizeLawsOfBuiltTrees : Prop :=
  ∀ (f : Memory) (t : CodeTree), buildTree f = some t →
    1 ≤ t.leafSyms.length ∧ t.leafSyms.length ≤ 256 ∧
    t.nodeCount = t.leafSyms.length - 1 ∧
    t.nodeCount + t.leafSyms.length = 2 * t.leafSyms.length - 1 ∧
    t.depth ≤ t.leafSyms.length - 1 ∧
    (∀ sym c, t.code sym = some c → 1 ≤ c.length ∧ c.length ≤ 255) ∧
    t.count = totalOf f ∧ t.count.toNat ≤ 256 * (2 ^ 32 - 1)

/-- A symbol has a code exactly when the tree has a leaf for it, the code leads from the root to that
leaf, and under a built tree those are the symbols with a nonzero count (42_build.md R168,
43_encode_decode.md R180). -/
def Obligations.CodesExistExactlyForLeaves : Prop :=
  (∀ (t : CodeTree) (sym : Sym), (t.code sym).isSome = true ↔ sym ∈ t.leafSyms) ∧
  (∀ (nsym : Sym) (count : NodeCount) (left right : CodeTree) (sym : Sym) (c : List Bit),
    (CodeTree.node nsym count left right).code sym = some c →
    ∃ n, (CodeTree.node nsym count left right).descend c = some (.leaf sym n)) ∧
  (∀ (f : Memory) (t : CodeTree) (sym : Sym), buildTree f = some t →
    ((t.code sym).isSome = true ↔ f.read (ftIndex sym) ≠ 0))

/-- 42_build.md R172: two BUILDs from the same table content give the same tree, TOTAL and NSYM,
whatever else the states hold. -/
def Obligations.BuildDependsOnTheTableOnly : Prop :=
  ∀ s s' t t' : State, s.mode = .run → s'.mode = .run →
    (∀ sym : Sym, s.ft.read (ftIndex sym) = s'.ft.read (ftIndex sym)) →
    exec .build s = .next t → exec .build s' = .next t' →
    t.ts = t'.ts ∧ t.total = t'.total ∧ t.nsym = t'.nsym

/-- 42_build.md R173: with at least two leaves the sum over s of F[s] × len(code(t, s)) is the sum of
the counts of the Nodes; for a single leaf it is TOTAL. -/
def Obligations.EncodedLengthIsTheNodeCountSum : Prop :=
  ∀ (f : Memory) (t : CodeTree), buildTree f = some t →
    (2 ≤ t.leafSyms.length → encodedLength f t = t.nodeCountSum) ∧
    (t.leafSyms.length = 1 → encodedLength f t = (totalOf f).toNat)

/-! ### Round trips -/

/-- 40_bitio.md R128: bits written from an empty writer and flushed come out as ceil(n / 8) bytes, the
bits and then zeros; read back, they return in order, and EOS stays 0. With no bits nothing is emitted,
and RINIT on the empty BIN draws and sets EOS. -/
def Obligations.BitRoundTrip : Prop :=
  (∀ s : State, s.mode = .run → s.bwCnt = 0 → writerInv s → exec .wflush s = .next s) ∧
  (∀ (fill : Nat → Byte) (r : State), r.mode = .run → r.bin = [] →
    ∃ r₁, execRinitWith fill r = .next r₁ ∧ r₁.brBuf = fill r.draws ∧ r₁.eos = true) ∧
  ∀ (s : State) (bits : List Bit), s.mode = .run → s.bwCnt = 0 → writerInv s → bits ≠ [] →
    ∃ w packed, execAll (bits.map .wbit ++ [.wflush]) s = .next w ∧ w.bout = s.bout ++ packed ∧
      packed.length = (bits.length + 7) / 8 ∧
      streamBits packed = bits ++ List.replicate ((8 - bits.length % 8) % 8) false ∧
      ∀ (fill : Nat → Byte) (r : State), r.mode = .run → r.brInit = false → r.eos = false →
        r.bin = packed →
        ∃ r₁, execRinitWith fill r = .next r₁ ∧ (readBits fill bits.length r₁).1 = bits ∧
          (readBits fill bits.length r₁).2.eos = false

/-- 40_bitio.md R129: after the reads of the round trip, the padding bits come without a fill, all zero;
only the read after them finds BIN empty and sets EOS. -/
def Obligations.PaddingReadsWithoutAFill : Prop :=
  ∀ (fill : Nat → Byte) (r : State) (bits : List Bit) (packed : List Byte),
    r.mode = .run → r.brInit = false → r.eos = false → r.bin = packed → bits ≠ [] →
    streamBits packed = bits ++ List.replicate ((8 - bits.length % 8) % 8) false →
    ∃ r₁, execRinitWith fill r = .next r₁ ∧
      (∀ k, k ≤ (8 - bits.length % 8) % 8 →
        (readBits fill k (readBits fill bits.length r₁).2).1 = List.replicate k false ∧
        (readBits fill k (readBits fill bits.length r₁).2).2.eos = false ∧
        (readBits fill k (readBits fill bits.length r₁).2).2.bin = []) ∧
      (readBits fill ((8 - bits.length % 8) % 8 + 1) (readBits fill bits.length r₁).2).2.eos = true

/-- 43_encode_decode.md R185: the round trip of every nonempty byte sequence, through any RUN-mode
states, the writer empty before and BIN holding exactly the bytes emitted. -/
def Obligations.RoundTrip : Prop :=
  ∀ (text : List Sym) (s : State), text ≠ [] → (∀ sym, occurrences text sym ≤ 2 ^ 32 - 1) →
    s.mode = .run → s.bwCnt = 0 → writerInv s →
    ∃ c packed, execAll (compressSeq text) s = .next c ∧ c.bout = s.bout ++ packed ∧
      c.total.toNat = text.length ∧
      ∀ d : State, d.mode = .run → d.bin = packed →
        ∃ e, execAll (decompressSeq text) d = .next e ∧ e.sout = d.sout ++ text ∧
          e.eos = d.eos ∧ e.draws = d.draws

/-! ### The assembler -/

/-- 30_encoding.md R99: an assembled word is never illegal, and an operand out of range produces no
word. -/
def Obligations.AssembledWordsAreLegal : Prop :=
  (∀ (c : AsmCommand) (ws : List Word), assembleWords c = some ws → ∀ w ∈ ws, (decode w).isSome = true) ∧
  (∀ line ws, assembleLine line = some ws → ∀ w ∈ ws, (decode w).isSome = true) ∧
  (∀ n count : Nat,
    (assembleWords (.fwr n count) = none ↔ (255 < n ∨ 0xFFFFFFFF < count)) ∧
    (assembleWords (.finc n) = none ↔ 255 < n) ∧ (assembleWords (.frd n) = none ↔ 255 < n) ∧
    (assembleWords (.enc n) = none ↔ 255 < n) ∧ (assembleWords (.wbit n) = none ↔ 1 < n))

/-- 30_encoding.md R101: what each pseudo-command expands to. Its texts are ASCII (log 17). -/
def Obligations.PseudoCommandsExpand : Prop :=
  (∀ text : List Char, (∀ c ∈ text, c.toNat < 128) →
    assemble (.fscan text) = some (text.map fun c => .finc (BitVec.ofNat 8 c.toNat)) ∧
    assemble (.encs text) = some ((text.map fun c => .enc (BitVec.ofNat 8 c.toNat)) ++ [.wflush])) ∧
  (∀ pairs : List (Nat × Nat), (∀ p ∈ pairs, p.1 ≤ 255 ∧ p.2 ≤ 0xFFFFFFFF) →
    assemble (.fload pairs) =
      some (.fclr :: pairs.map fun p => .fwr (BitVec.ofNat 8 p.1) (BitVec.ofNat 32 p.2))) ∧
  (∀ n : Nat, assemble (.decn n) = some (List.replicate n .dec)) ∧
  (∀ bits : List Bit, assemble (.wbits (bits.map fun b => if b then '1' else '0')) =
    some (bits.map .wbit))
end

