-- ==== Sys2Proof/Laws/Decode.lean ====
section
/-! SUPPORT. The laws of the word format (30_encoding.md R91): a word is its five fields, and a row of
the opcode map accepts a word by fields. -/

namespace Sys2Proof

/-- Two words are equal exactly when their five fields are. -/
theorem word_ext_iff (u v : Word) :
    u = v ↔ opcOf u = opcOf v ∧ symOf u = symOf v ∧ rsvOf u = rsvOf v ∧ bOf u = bOf v ∧
      immOf u = immOf v := by
  refine ⟨fun h => by simp [h], fun ⟨ho, hs, hr, hb, hi⟩ => ?_⟩
  apply BitVec.eq_of_getLsbD_eq
  intro i hlt
  have ho := fun j => congrArg (fun x => x.getLsbD j) ho
  have hs := fun j => congrArg (fun x => x.getLsbD j) hs
  have hr := fun j => congrArg (fun x => x.getLsbD j) hr
  have hi := fun j => congrArg (fun x => x.getLsbD j) hi
  simp only [opcOf, symOf, rsvOf, bOf, immOf, BitVec.getLsbD_extractLsb'] at ho hs hr hb hi
  by_cases h1 : i < 32
  · simpa [h1] using hi i
  by_cases h2 : i = 32
  · subst h2; exact hb
  by_cases h3 : i < 48
  · have := hr (i - 33)
    rw [show 33 + (i - 33) = i by omega] at this
    simpa [show i - 33 < 15 by omega] using this
  by_cases h4 : i < 56
  · have := hs (i - 48)
    rw [show 48 + (i - 48) = i by omega] at this
    simpa [show i - 48 < 8 by omega] using this
  · have := ho (i - 56)
    rw [show 56 + (i - 56) = i by omega] at this
    simpa [show i - 56 < 8 by omega] using this

@[simp] theorem opcOf_and (u v : Word) : opcOf (u &&& v) = opcOf u &&& opcOf v :=
  BitVec.extractLsb'_and

@[simp] theorem symOf_and (u v : Word) : symOf (u &&& v) = symOf u &&& symOf v :=
  BitVec.extractLsb'_and

@[simp] theorem rsvOf_and (u v : Word) : rsvOf (u &&& v) = rsvOf u &&& rsvOf v :=
  BitVec.extractLsb'_and

@[simp] theorem bOf_and (u v : Word) : bOf (u &&& v) = (bOf u && bOf v) := BitVec.getLsbD_and

@[simp] theorem immOf_and (u v : Word) : immOf (u &&& v) = immOf u &&& immOf v :=
  BitVec.extractLsb'_and

theorem getLsbD_wordOf (opc : BitVec 8) (sym : Sym) (b : Bit) (imm : Count) (i : Nat) :
    (wordOf opc sym b imm).getLsbD i =
      if i < 32 then imm.getLsbD i
      else if i < 33 then b
      else if i < 48 then false
      else if i < 56 then sym.getLsbD (i - 48)
      else opc.getLsbD (i - 56) := by
  unfold wordOf
  simp only [BitVec.getLsbD_append]
  by_cases h1 : i < 32
  · simp only [h1, if_true]
  simp only [h1, if_false]
  by_cases h2 : i < 33
  · have : i = 32 := by omega
    subst this; cases b <;> rfl
  simp only [h2, if_false, show ¬ (i - 32 < 1) by omega]
  by_cases h3 : i < 48
  · simp only [h3, if_true, show i - 32 - 1 < 15 by omega, BitVec.getLsbD_zero]
  simp only [h3, if_false, show ¬ (i - 32 - 1 < 15) by omega]
  by_cases h4 : i < 56
  · simp only [h4, if_true, show i - 32 - 1 - 15 = i - 48 by omega, show i - 48 < 8 by omega]
  · simp only [h4, if_false, show ¬ (i - 32 - 1 - 15 < 8) by omega,
      show i - 32 - 1 - 15 - 8 = i - 56 by omega]

section Fields

variable (opc : BitVec 8) (sym : Sym) (b : Bit) (imm : Count)

@[simp] theorem opcOf_wordOf : opcOf (wordOf opc sym b imm) = opc := by
  apply BitVec.eq_of_getLsbD_eq
  intro i hi
  simp [opcOf, getLsbD_wordOf, hi, show ¬ (56 + i < 32) by omega, show ¬ (56 + i < 33) by omega,
    show ¬ (56 + i < 48) by omega]

@[simp] theorem symOf_wordOf : symOf (wordOf opc sym b imm) = sym := by
  apply BitVec.eq_of_getLsbD_eq
  intro i hi
  simp [symOf, getLsbD_wordOf, hi, show ¬ (48 + i < 32) by omega, show ¬ (48 + i < 33) by omega,
    show 48 + i < 56 by omega]

@[simp] theorem rsvOf_wordOf : rsvOf (wordOf opc sym b imm) = 0 := by
  apply BitVec.eq_of_getLsbD_eq
  intro i hi
  simp [rsvOf, getLsbD_wordOf, show ¬ (33 + i < 32) by omega, show 33 + i < 48 by omega]

@[simp] theorem bOf_wordOf : bOf (wordOf opc sym b imm) = b := by
  show (wordOf opc sym b imm).getLsbD 32 = b
  rw [getLsbD_wordOf]; rfl

@[simp] theorem immOf_wordOf : immOf (wordOf opc sym b imm) = imm := by
  apply BitVec.eq_of_getLsbD_eq
  intro i hi
  simp [immOf, getLsbD_wordOf, hi]

end Fields

/-- A row accepts a word exactly when the masked fields of the word are the pattern's. -/
theorem accepts_iff (r : Row) (w : Word) :
    r.accepts w = true ↔
      opcOf w &&& opcOf r.mask = opcOf r.pattern ∧ symOf w &&& symOf r.mask = symOf r.pattern ∧
      rsvOf w &&& rsvOf r.mask = rsvOf r.pattern ∧ (bOf w && bOf r.mask) = bOf r.pattern ∧
      immOf w &&& immOf r.mask = immOf r.pattern := by
  unfold Row.accepts
  rw [beq_iff_eq, word_ext_iff]
  simp

/-- The bits of a word that `decode` accepts come from one row of the map (30_encoding.md R95). -/
theorem decode_eq_some_iff (w : Word) (i : Instr) :
    decode w = some i ↔
      ∃ r, opcodeMap.find? (·.accepts w) = some r ∧ r.command (symOf w) (bOf w) (immOf w) = i := by
  simp [decode]

end Sys2Proof
end

