-- ==== Sys2Proof/Laws/Memory.lean ====
section
/-! SUPPORT. The laws of the frequency-table space: what a read after a write gives, in any memory,
and that every operation keeps the canonical form (log 1). -/

namespace Sys2Proof.Machine

@[simp] theorem Memory.read_nil (a : Nat) : Memory.read [] a = 0 := rfl

theorem Memory.read_cons (k : Nat) (v : Count) (m : Memory) (a : Nat) :
    Memory.read ((k, v) :: m) a = if k = a then v else Memory.read m a := rfl

@[simp] theorem Memory.read_clear (m : Memory) (a : Nat) : m.clear.read a = 0 := rfl

theorem Memory.read_filter_same (m : Memory) (a : Nat) :
    Memory.read (m.filter fun e => e.1 != a) a = 0 := by
  induction m with
  | nil => rfl
  | cons e m ih =>
    obtain ⟨k, v⟩ := e
    by_cases h : k = a
    · simpa [List.filter_cons, h] using ih
    · simpa [List.filter_cons, h, Memory.read_cons] using ih

theorem Memory.read_filter_other (m : Memory) {a b : Nat} (hab : b ≠ a) :
    Memory.read (m.filter fun e => e.1 != a) b = m.read b := by
  induction m with
  | nil => rfl
  | cons e m ih =>
    obtain ⟨k, v⟩ := e
    by_cases h : k = a
    · subst h; simpa [List.filter_cons, Memory.read_cons, hab.symm] using ih
    · by_cases hb : k = b <;> simp [h, Memory.read_cons, hb, hab, ih]

theorem Memory.read_insert_same (m : Memory) (a : Nat) (v : Count)
    (h : ∀ e ∈ m, e.1 ≠ a) : Memory.read (Memory.insert a v m) a = v := by
  induction m with
  | nil => simp [Memory.insert, Memory.read_cons]
  | cons e m ih =>
    obtain ⟨k, x⟩ := e
    have hk : k ≠ a := h (k, x) (by simp)
    have := ih fun e he => h e (by simp [he])
    unfold Memory.insert
    split <;> simp [Memory.read_cons, hk, this]

theorem Memory.read_insert_other (m : Memory) {a b : Nat} (v : Count) (hab : b ≠ a) :
    Memory.read (Memory.insert a v m) b = m.read b := by
  induction m with
  | nil => simp [Memory.insert, Memory.read_cons, hab.symm]
  | cons e m ih =>
    obtain ⟨k, x⟩ := e
    unfold Memory.insert
    split <;> simp [Memory.read_cons, hab.symm, ih]

/-- Read after write: the same index gives the value written. -/
@[simp] theorem Memory.read_write_same (m : Memory) (a : Nat) (v : Count) :
    (m.write a v).read a = v := by
  unfold Memory.write
  split
  · next h => rw [Memory.read_filter_same, h]; rfl
  · exact Memory.read_insert_same _ a v fun e he => by simpa using (List.mem_filter.1 he).2

/-- Read after write: every other index is left alone. -/
theorem Memory.read_write_other (m : Memory) {a b : Nat} (v : Count) (hab : b ≠ a) :
    (m.write a v).read b = m.read b := by
  unfold Memory.write
  split
  · exact Memory.read_filter_other m hab
  · rw [Memory.read_insert_other _ v hab, Memory.read_filter_other m hab]

theorem Memory.wf_nil : Memory.wf [] := by simp [Memory.wf]

theorem Memory.wf_clear (m : Memory) : m.clear.wf := Memory.wf_nil

theorem Memory.wf_filter {m : Memory} (h : m.wf) (p : Nat × Count → Bool) :
    Memory.wf (m.filter p) :=
  ⟨h.1.sublist (List.filter_sublist.map _), fun e he => h.2 e (List.mem_of_mem_filter he)⟩

theorem Memory.mem_insert {m : Memory} {a : Nat} {v : Count} {e : Nat × Count} :
    e ∈ Memory.insert a v m ↔ e = (a, v) ∨ e ∈ m := by
  induction m with
  | nil => simp [Memory.insert]
  | cons x m ih =>
    obtain ⟨k, y⟩ := x
    unfold Memory.insert
    split
    · simp
    · simp only [List.mem_cons, ih]; tauto

theorem Memory.wf_insert {m : Memory} (h : m.wf) {a : Nat} {v : Count} (ha : a < Config.nsymMax)
    (hv : v ≠ 0) (hm : ∀ e ∈ m, e.1 ≠ a) : Memory.wf (Memory.insert a v m) := by
  refine ⟨?_, fun e he => ?_⟩
  · induction m with
    | nil => simp [Memory.insert]
    | cons x m ih =>
      obtain ⟨k, y⟩ := x
      have hp := List.pairwise_cons.1 h.1
      have hk : k ≠ a := hm (k, y) (by simp)
      unfold Memory.insert
      split
      · next hak =>
        refine List.pairwise_cons.2 ⟨fun b hb => ?_, h.1⟩
        rcases List.mem_cons.1 hb with rfl | hb
        · exact hak
        · exact hak.trans (hp.1 b hb)
      · next hak =>
        refine List.pairwise_cons.2 ⟨fun b hb => ?_, ih ⟨hp.2, fun e he => h.2 e (by simp [he])⟩
          fun e he => hm e (by simp [he])⟩
        obtain ⟨e, he, rfl⟩ := List.mem_map.1 hb
        rcases Memory.mem_insert.1 he with rfl | he
        · show k < a; omega
        · exact hp.1 _ (List.mem_map_of_mem he)
  · rcases Memory.mem_insert.1 he with rfl | he
    · exact ⟨ha, hv⟩
    · exact h.2 e he

/-- Every write of an index below 256 keeps the canonical form. -/
theorem Memory.wf_write {m : Memory} (h : m.wf) {a : Nat} (ha : a < Config.nsymMax) (v : Count) :
    (m.write a v).wf := by
  unfold Memory.write
  split
  · exact Memory.wf_filter h _
  · next hv =>
    exact Memory.wf_insert (Memory.wf_filter h _) ha hv fun e he => by
      simpa using (List.mem_filter.1 he).2

/-- Every SYM operand names an index below 256 (20_memory.md R61). -/
theorem ftIndex_lt (sym : Sym) : ftIndex sym < Config.nsymMax := sym.isLt

/-- Different symbols name different entries (20_memory.md R61). -/
theorem ftIndex_inj {a b : Sym} : ftIndex a = ftIndex b ↔ a = b := BitVec.toNat_inj

end Sys2Proof.Machine
end

