-- ==== Sys2Proof/Laws/State.lean ====
section
/-! SUPPORT. What each named update of the state does to each field: one lemma per field per update,
so that no later proof unfolds a record update. -/

namespace Sys2Proof.Machine

variable (s : State)

/-! ### `emit_byte` (10_state.md R31) -/

@[simp] theorem emitByte_mode (v : Byte) : (emitByte v s).mode = s.mode := rfl
@[simp] theorem emitByte_ft (v : Byte) : (emitByte v s).ft = s.ft := rfl
@[simp] theorem emitByte_ts (v : Byte) : (emitByte v s).ts = s.ts := rfl
@[simp] theorem emitByte_total (v : Byte) : (emitByte v s).total = s.total := rfl
@[simp] theorem emitByte_nsym (v : Byte) : (emitByte v s).nsym = s.nsym := rfl
@[simp] theorem emitByte_bwBuf (v : Byte) : (emitByte v s).bwBuf = s.bwBuf := rfl
@[simp] theorem emitByte_bwCnt (v : Byte) : (emitByte v s).bwCnt = s.bwCnt := rfl
@[simp] theorem emitByte_brBuf (v : Byte) : (emitByte v s).brBuf = s.brBuf := rfl
@[simp] theorem emitByte_brCnt (v : Byte) : (emitByte v s).brCnt = s.brCnt := rfl
@[simp] theorem emitByte_brInit (v : Byte) : (emitByte v s).brInit = s.brInit := rfl
@[simp] theorem emitByte_eos (v : Byte) : (emitByte v s).eos = s.eos := rfl
@[simp] theorem emitByte_res (v : Byte) : (emitByte v s).res = s.res := rfl
@[simp] theorem emitByte_errc (v : Byte) : (emitByte v s).errc = s.errc := rfl
@[simp] theorem emitByte_errcmd (v : Byte) : (emitByte v s).errcmd = s.errcmd := rfl
@[simp] theorem emitByte_bin (v : Byte) : (emitByte v s).bin = s.bin := rfl
@[simp] theorem emitByte_bout (v : Byte) : (emitByte v s).bout = s.bout ++ [v] := rfl
@[simp] theorem emitByte_sout (v : Byte) : (emitByte v s).sout = s.sout := rfl
@[simp] theorem emitByte_cmd (v : Byte) : (emitByte v s).cmd = s.cmd := rfl
@[simp] theorem emitByte_pos (v : Byte) : (emitByte v s).pos = s.pos := rfl
@[simp] theorem emitByte_draws (v : Byte) : (emitByte v s).draws = s.draws := rfl
@[simp] theorem emitByte_host (v : Byte) : (emitByte v s).host = s.host := rfl

/-! ### `emit_sym` (10_state.md R32) -/

@[simp] theorem emitSym_mode (v : Sym) : (emitSym v s).mode = s.mode := rfl
@[simp] theorem emitSym_ft (v : Sym) : (emitSym v s).ft = s.ft := rfl
@[simp] theorem emitSym_ts (v : Sym) : (emitSym v s).ts = s.ts := rfl
@[simp] theorem emitSym_total (v : Sym) : (emitSym v s).total = s.total := rfl
@[simp] theorem emitSym_nsym (v : Sym) : (emitSym v s).nsym = s.nsym := rfl
@[simp] theorem emitSym_bwBuf (v : Sym) : (emitSym v s).bwBuf = s.bwBuf := rfl
@[simp] theorem emitSym_bwCnt (v : Sym) : (emitSym v s).bwCnt = s.bwCnt := rfl
@[simp] theorem emitSym_brBuf (v : Sym) : (emitSym v s).brBuf = s.brBuf := rfl
@[simp] theorem emitSym_brCnt (v : Sym) : (emitSym v s).brCnt = s.brCnt := rfl
@[simp] theorem emitSym_brInit (v : Sym) : (emitSym v s).brInit = s.brInit := rfl
@[simp] theorem emitSym_eos (v : Sym) : (emitSym v s).eos = s.eos := rfl
@[simp] theorem emitSym_res (v : Sym) : (emitSym v s).res = s.res := rfl
@[simp] theorem emitSym_errc (v : Sym) : (emitSym v s).errc = s.errc := rfl
@[simp] theorem emitSym_errcmd (v : Sym) : (emitSym v s).errcmd = s.errcmd := rfl
@[simp] theorem emitSym_bin (v : Sym) : (emitSym v s).bin = s.bin := rfl
@[simp] theorem emitSym_bout (v : Sym) : (emitSym v s).bout = s.bout := rfl
@[simp] theorem emitSym_sout (v : Sym) : (emitSym v s).sout = s.sout ++ [v] := rfl
@[simp] theorem emitSym_cmd (v : Sym) : (emitSym v s).cmd = s.cmd := rfl
@[simp] theorem emitSym_pos (v : Sym) : (emitSym v s).pos = s.pos := rfl
@[simp] theorem emitSym_draws (v : Sym) : (emitSym v s).draws = s.draws := rfl
@[simp] theorem emitSym_host (v : Sym) : (emitSym v s).host = s.host := rfl

/-! ### Error entry (60_exceptions.md R212) -/

@[simp] theorem raiseError_mode (c : Cause) (w : Word) : (raiseError c w s).mode = .faulted := rfl
@[simp] theorem raiseError_ft (c : Cause) (w : Word) : (raiseError c w s).ft = s.ft := rfl
@[simp] theorem raiseError_ts (c : Cause) (w : Word) : (raiseError c w s).ts = s.ts := rfl
@[simp] theorem raiseError_total (c : Cause) (w : Word) : (raiseError c w s).total = s.total := rfl
@[simp] theorem raiseError_nsym (c : Cause) (w : Word) : (raiseError c w s).nsym = s.nsym := rfl
@[simp] theorem raiseError_bwBuf (c : Cause) (w : Word) : (raiseError c w s).bwBuf = s.bwBuf := rfl
@[simp] theorem raiseError_bwCnt (c : Cause) (w : Word) : (raiseError c w s).bwCnt = s.bwCnt := rfl
@[simp] theorem raiseError_brBuf (c : Cause) (w : Word) : (raiseError c w s).brBuf = s.brBuf := rfl
@[simp] theorem raiseError_brCnt (c : Cause) (w : Word) : (raiseError c w s).brCnt = s.brCnt := rfl
@[simp] theorem raiseError_brInit (c : Cause) (w : Word) : (raiseError c w s).brInit = s.brInit := rfl
@[simp] theorem raiseError_eos (c : Cause) (w : Word) : (raiseError c w s).eos = s.eos := rfl
@[simp] theorem raiseError_res (c : Cause) (w : Word) : (raiseError c w s).res = s.res := rfl
@[simp] theorem raiseError_errc (c : Cause) (w : Word) : (raiseError c w s).errc = c.code := rfl
@[simp] theorem raiseError_errcmd (c : Cause) (w : Word) : (raiseError c w s).errcmd = w := rfl
@[simp] theorem raiseError_bin (c : Cause) (w : Word) : (raiseError c w s).bin = s.bin := rfl
@[simp] theorem raiseError_bout (c : Cause) (w : Word) : (raiseError c w s).bout = s.bout := rfl
@[simp] theorem raiseError_sout (c : Cause) (w : Word) : (raiseError c w s).sout = s.sout := rfl
@[simp] theorem raiseError_cmd (c : Cause) (w : Word) : (raiseError c w s).cmd = s.cmd := rfl
@[simp] theorem raiseError_pos (c : Cause) (w : Word) : (raiseError c w s).pos = s.pos := rfl
@[simp] theorem raiseError_draws (c : Cause) (w : Word) : (raiseError c w s).draws = s.draws := rfl
@[simp] theorem raiseError_host (c : Cause) (w : Word) : (raiseError c w s).host = s.host := rfl

/-! ### Taking a word from the port (20_memory.md R71) -/

@[simp] theorem acceptWord_mode : (acceptWord s).mode = s.mode := rfl
@[simp] theorem acceptWord_ft : (acceptWord s).ft = s.ft := rfl
@[simp] theorem acceptWord_ts : (acceptWord s).ts = s.ts := rfl
@[simp] theorem acceptWord_total : (acceptWord s).total = s.total := rfl
@[simp] theorem acceptWord_nsym : (acceptWord s).nsym = s.nsym := rfl
@[simp] theorem acceptWord_bwBuf : (acceptWord s).bwBuf = s.bwBuf := rfl
@[simp] theorem acceptWord_bwCnt : (acceptWord s).bwCnt = s.bwCnt := rfl
@[simp] theorem acceptWord_brBuf : (acceptWord s).brBuf = s.brBuf := rfl
@[simp] theorem acceptWord_brCnt : (acceptWord s).brCnt = s.brCnt := rfl
@[simp] theorem acceptWord_brInit : (acceptWord s).brInit = s.brInit := rfl
@[simp] theorem acceptWord_eos : (acceptWord s).eos = s.eos := rfl
@[simp] theorem acceptWord_res : (acceptWord s).res = s.res := rfl
@[simp] theorem acceptWord_errc : (acceptWord s).errc = s.errc := rfl
@[simp] theorem acceptWord_errcmd : (acceptWord s).errcmd = s.errcmd := rfl
@[simp] theorem acceptWord_bin : (acceptWord s).bin = s.bin := rfl
@[simp] theorem acceptWord_bout : (acceptWord s).bout = s.bout := rfl
@[simp] theorem acceptWord_sout : (acceptWord s).sout = s.sout := rfl
@[simp] theorem acceptWord_cmd : (acceptWord s).cmd = none := rfl
@[simp] theorem acceptWord_pos : (acceptWord s).pos = s.pos + 1 := rfl
@[simp] theorem acceptWord_draws : (acceptWord s).draws = s.draws := rfl
@[simp] theorem acceptWord_host : (acceptWord s).host = s.host := rfl

/-! ### Reset (70_reset_and_hazards.md R250) -/

@[simp] theorem applyReset_mode : (applyReset s).mode = State.reset.mode := rfl
@[simp] theorem applyReset_ft : (applyReset s).ft = State.reset.ft := rfl
@[simp] theorem applyReset_ts : (applyReset s).ts = State.reset.ts := rfl
@[simp] theorem applyReset_total : (applyReset s).total = State.reset.total := rfl
@[simp] theorem applyReset_nsym : (applyReset s).nsym = State.reset.nsym := rfl
@[simp] theorem applyReset_bwBuf : (applyReset s).bwBuf = State.reset.bwBuf := rfl
@[simp] theorem applyReset_bwCnt : (applyReset s).bwCnt = State.reset.bwCnt := rfl
@[simp] theorem applyReset_brBuf : (applyReset s).brBuf = State.reset.brBuf := rfl
@[simp] theorem applyReset_brCnt : (applyReset s).brCnt = State.reset.brCnt := rfl
@[simp] theorem applyReset_brInit : (applyReset s).brInit = State.reset.brInit := rfl
@[simp] theorem applyReset_eos : (applyReset s).eos = State.reset.eos := rfl
@[simp] theorem applyReset_res : (applyReset s).res = State.reset.res := rfl
@[simp] theorem applyReset_errc : (applyReset s).errc = State.reset.errc := rfl
@[simp] theorem applyReset_errcmd : (applyReset s).errcmd = State.reset.errcmd := rfl
@[simp] theorem applyReset_bin : (applyReset s).bin = s.bin := rfl
@[simp] theorem applyReset_bout : (applyReset s).bout = s.bout := rfl
@[simp] theorem applyReset_sout : (applyReset s).sout = s.sout := rfl
@[simp] theorem applyReset_cmd : (applyReset s).cmd = s.cmd := rfl
@[simp] theorem applyReset_pos : (applyReset s).pos = s.pos := rfl
@[simp] theorem applyReset_draws : (applyReset s).draws = s.draws := rfl
@[simp] theorem applyReset_host : (applyReset s).host = s.host := rfl

end Sys2Proof.Machine
end

