-- ==== Sys2Proof/Laws/Writer.lean ====
section
/-! SUPPORT. The laws of the bit writer: everything one `BW_put` and one `BW_flush` can do
(40_bitio.md R120, R123), in terms of the bits the stream holds (20_memory.md R62, R63). -/

namespace Sys2Proof.Machine

@[simp] theorem byteBits_length (v : Byte) : (byteBits v).length = 8 := by simp [byteBits]

@[simp] theorem byteBits_getElem (v : Byte) (i : Nat) (h : i < (byteBits v).length) :
    (byteBits v)[i] = v.getLsbD (7 - i) := by simp [byteBits]

theorem streamBits_append (xs ys : List Byte) :
    streamBits (xs ++ ys) = streamBits xs ++ streamBits ys := by
  simp [streamBits]

@[simp] theorem streamBits_nil : streamBits [] = [] := rfl

@[simp] theorem streamBits_cons (v : Byte) (xs : List Byte) :
    streamBits (v :: xs) = byteBits v ++ streamBits xs := rfl

@[simp] theorem streamBits_length (xs : List Byte) : (streamBits xs).length = 8 * xs.length := by
  induction xs with
  | nil => rfl
  | cons v xs ih => simp [ih]; omega

@[simp] theorem pendingBits_length (s : State) : (pendingBits s).length = s.bwCnt.val := by
  simp [pendingBits]

theorem bwCnt_succ {c : Fin 8} (h : c ≠ 7) : (c + 1).val = c.val + 1 := by
  have : c.val ≠ 7 := fun e => h (Fin.ext e)
  have := c.isLt
  rw [Fin.val_add]; simp; omega

/-- The buffer after `BW_put`: bit number `7 - k` takes the bit (40_bitio.md R120). -/
theorem getLsbD_orBit (v : Byte) (b : Bit) (k i : Nat) (hk : k < 8) :
    (v ||| (zextBit8 b <<< (7 - k))).getLsbD i = (v.getLsbD i || (decide (i = 7 - k) && b)) := by
  have h2 : ∀ j, (zextBit8 b).getLsbD j = (decide (j = 0) && b) := by
    intro j
    cases b <;> cases j <;> simp [zextBit8]
  simp only [BitVec.getLsbD_or, BitVec.getLsbD_shiftLeft, h2]
  congr 1
  by_cases h : i = 7 - k
  · subst h; simp; omega
  · by_cases h3 : 7 - k ≤ i <;> simp [h, h3]
    intro; omega

theorem byteBits_orBit {v : Byte} {b : Bit} {k : Nat} (hk : k < 8)
    (hz : ∀ i, i ≤ 7 - k → v.getLsbD i = false) :
    (byteBits (v ||| (zextBit8 b <<< (7 - k)))).take (k + 1) = (byteBits v).take k ++ [b] := by
  apply List.ext_getElem
  · simp; omega
  · intro i h1 h2
    simp at h1
    rw [List.getElem_take, byteBits_getElem, getLsbD_orBit _ _ _ _ hk]
    by_cases hik : i < k
    · rw [List.getElem_append_left (by simp; omega), List.getElem_take, byteBits_getElem]
      have : 7 - i ≠ 7 - k := by omega
      simp [this]
    · have : i = k := by omega
      subst this
      rw [List.getElem_append_right (by simp)]
      simp [hz]

/-- `BW_put` touches the writer and BOUT only, and BOUT only grows at its end. -/
theorem bwPut_frame (b : Bit) (s : State) :
    ∃ buf cnt emitted, bwPut b s = { s with bwBuf := buf, bwCnt := cnt, bout := s.bout ++ emitted } := by
  unfold bwPut
  simp only
  split
  · exact ⟨_, _, _, rfl⟩
  · exact ⟨s.bwBuf ||| (zextBit8 b <<< (7 - s.bwCnt.val)), s.bwCnt + 1, [], by simp⟩

/-- `BW_put` keeps the writer's invariant (10_state.md R27). -/
theorem writerInv_bwPut {s : State} (h : writerInv s) (b : Bit) : writerInv (bwPut b s) := by
  unfold bwPut
  simp only
  split
  · intro i _; simp
  · next hc =>
    intro i hi
    have hlt := s.bwCnt.isLt
    have hv := bwCnt_succ hc
    simp only at hi ⊢
    rw [hv] at hi
    rw [getLsbD_orBit _ _ _ _ hlt, h i (by omega)]
    have : i ≠ 7 - s.bwCnt.val := by omega
    simp [this]

/-- One `BW_put`: its bit follows every bit written before it (20_memory.md R62, R63). -/
theorem writtenBits_bwPut {s : State} (h : writerInv s) (b : Bit) :
    writtenBits (bwPut b s) = writtenBits s ++ [b] := by
  have hlt := s.bwCnt.isLt
  have key := byteBits_orBit (b := b) hlt h
  unfold bwPut
  simp only
  split
  · next hc =>
    have h7 : s.bwCnt.val = 7 := by rw [hc]; rfl
    rw [h7] at key
    rw [List.take_of_length_le (by simp)] at key
    simp only [writtenBits, pendingBits, emitByte_bout, streamBits_append, streamBits_cons, streamBits_nil]
    simp [h7]
    simpa using key
  · next hc => simp only [writtenBits, pendingBits, bwCnt_succ hc, key, List.append_assoc]

/-- `BW_flush` touches the writer and BOUT only, and BOUT only grows at its end. -/
theorem bwFlush_frame (s : State) :
    ∃ emitted, bwFlush s = { s with bwBuf := 0, bwCnt := 0, bout := s.bout ++ emitted } := by
  unfold bwFlush
  split
  · exact ⟨_, rfl⟩
  · exact ⟨[], by simp⟩

/-- `BW_flush` keeps the writer's invariant (10_state.md R27). -/
theorem writerInv_bwFlush (s : State) : writerInv (bwFlush s) := by
  intro i _
  unfold bwFlush
  split <;> simp

end Sys2Proof.Machine
end

