-- ==== Sys2Proof/Laws/Reader.lean ====
section
/-! SUPPORT. The laws of the bit reader: everything one `BR_fill` and one `BR_get` can do
(40_bitio.md R121, R122), in terms of the bits that are still unread. -/

namespace Sys2Proof.Machine

/-- `BR_fill` touches the reader, BIN, EOS and the draws only. -/
theorem brFill_frame (fill : Nat → Byte) (s : State) :
    ∃ buf bin eos draws, brFill fill s =
      { s with brBuf := buf, brCnt := 0, bin := bin, eos := eos, draws := draws } := by
  unfold brFill
  split
  · exact ⟨_, _, _, _, rfl⟩
  · exact ⟨_, _, _, _, rfl⟩

/-- A fill takes at most one byte, from the front of BIN (10_state.md R30). -/
theorem brFill_bin_suffix (fill : Nat → Byte) (s : State) : (brFill fill s).bin <:+ s.bin := by
  unfold brFill
  split
  · next h => rw [h]; exact List.suffix_cons _ _
  · next h => rw [h]

/-- EOS is sticky (10_state.md R29). -/
theorem brFill_eos (fill : Nat → Byte) {s : State} (h : s.eos = true) : (brFill fill s).eos = true := by
  unfold brFill
  split <;> simp [h]

theorem brCnt_succ {c : Fin 9} (h : c ≠ 8) : (c + 1).val = c.val + 1 := by
  have : c.val ≠ 8 := fun e => h (Fin.ext e)
  have := c.isLt
  rw [Fin.val_add]; simp; omega

/-- `BR_get` touches the reader, BIN, EOS and the draws only. -/
theorem brGet_frame (fill : Nat → Byte) (s : State) :
    ∃ buf cnt bin eos draws, (brGet fill s).2 =
      { s with brBuf := buf, brCnt := cnt, bin := bin, eos := eos, draws := draws } := by
  unfold brGet brRefill
  split
  · obtain ⟨buf, bin, eos, draws, h⟩ := brFill_frame fill s
    rw [h]; exact ⟨_, _, _, _, _, rfl⟩
  · exact ⟨_, _, _, _, _, rfl⟩

theorem brGet_bin_suffix (fill : Nat → Byte) (s : State) : (brGet fill s).2.bin <:+ s.bin := by
  unfold brGet brRefill
  split
  · exact brFill_bin_suffix fill s
  · exact List.suffix_refl _

theorem brGet_eos (fill : Nat → Byte) {s : State} (h : s.eos = true) : (brGet fill s).2.eos = true := by
  unfold brGet brRefill
  split
  · exact brFill_eos fill h
  · exact h

/-- A read that has an unread bit returns it, and draws nothing. -/
theorem brGet_unread (fill : Nat → Byte) {s : State} {b : Bit} {rest : List Bit}
    (h : unreadBits s = b :: rest) :
    (brGet fill s).1 = b ∧ unreadBits (brGet fill s).2 = rest ∧
      ∃ buf cnt bin, (brGet fill s).2 = { s with brBuf := buf, brCnt := cnt, bin := bin } := by
  have main : ∀ u : State, u.brCnt ≠ 8 → unreadBits u = b :: rest →
      u.brBuf.getLsbD (7 - u.brCnt.val) = b ∧
        unreadBits { u with brCnt := u.brCnt + 1 } = rest := by
    intro u hu hb
    have hlt : u.brCnt.val < 8 := by
      have : u.brCnt.val ≠ 8 := fun e => hu (Fin.ext e)
      omega
    unfold unreadBits at hb ⊢
    rw [List.drop_eq_getElem_cons (by simpa using hlt), List.cons_append, List.cons.injEq,
      byteBits_getElem] at hb
    simp only [brCnt_succ hu]
    exact hb
  unfold brGet brRefill
  by_cases h8 : s.brCnt = 8
  · simp only [h8, if_true]
    have hd : unreadBits s = streamBits s.bin := by
      simp [unreadBits, h8, List.drop_of_length_le]
    rw [hd] at h
    cases hbin : s.bin with
    | nil => simp [hbin] at h
    | cons v bs =>
      have hu : unreadBits (brFill fill s) = b :: rest := by
        simpa [brFill, hbin, unreadBits] using h
      have h0 : (brFill fill s).brCnt ≠ 8 := by simp [brFill, hbin]
      refine ⟨(main _ h0 hu).1, (main _ h0 hu).2, ?_⟩
      simp [brFill, hbin]
  · simp only [h8, if_false]
    exact ⟨(main s h8 h).1, (main s h8 h).2, _, _, _, rfl⟩

/-- A read with no unread bit draws a byte and sets EOS (40_bitio.md R121, R122). -/
theorem brGet_drawn (fill : Nat → Byte) {s : State} (h : unreadBits s = []) :
    brGet fill s = ((fill s.draws).getLsbD 7,
      { s with brBuf := fill s.draws, brCnt := 1, eos := true, draws := s.draws + 1 }) := by
  have h' := List.append_eq_nil_iff.1 h
  have h8 : s.brCnt = 8 := by
    have := List.drop_eq_nil_iff.1 h'.1
    simp at this
    exact Fin.ext (by have := s.brCnt.isLt; show s.brCnt.val = 8; omega)
  have hb : s.bin = [] := by
    cases hbin : s.bin with
    | nil => rfl
    | cons v bs => have := congrArg List.length h'.2; simp [hbin] at this
  simp [brGet, brRefill, h8, brFill, hb]

end Sys2Proof.Machine
end

