-- ==== Sys2Proof/Laws/Trees.lean ====
section
/-! SUPPORT. The laws of the priority relation and of the construction loop (42_build.md R160 to
R165): the relation is the order of a rank, one extraction takes a node of least rank and nothing
else, and a property kept by every merge holds of the tree that is built. -/

namespace Sys2Proof.Machine

/-- A number that orders nodes as `higher` does: counts first, then symbols from 255 down. -/
def rank (t : CodeTree) : Nat := t.count.toNat * 256 + (255 - t.sym.toNat)

theorem higher_iff (a b : CodeTree) : higher a b = true ↔ rank a < rank b := by
  have ha := a.sym.isLt
  have hb := b.sym.isLt
  simp only [higher, rank, BitVec.ult, Bool.or_eq_true, Bool.and_eq_true, decide_eq_true_eq, beq_iff_eq]
  rw [← BitVec.toNat_inj]
  omega

theorem rank_inj {a b : CodeTree} (h : rank a = rank b) : a.count = b.count ∧ a.sym = b.sym := by
  have ha := a.sym.isLt
  have hb := b.sym.isLt
  simp only [rank] at h
  constructor <;> apply BitVec.eq_of_toNat_eq <;> omega

/-- What the scan returns: the collection rearranged, its first node of least rank. -/
theorem takeHighest_spec (best : CodeTree) (q : List CodeTree) :
    (best :: q).Perm ((takeHighest best q).1 :: (takeHighest best q).2) ∧
      ∀ y ∈ (takeHighest best q).2, rank (takeHighest best q).1 ≤ rank y := by
  induction q generalizing best with
  | nil => simp [takeHighest]
  | cons x q ih =>
    unfold takeHighest
    split
    · next h =>
      obtain ⟨hp, hr⟩ := ih x
      have h := (higher_iff x best).1 h
      refine ⟨(List.Perm.cons best hp).trans (List.Perm.swap _ _ _), fun y hy => ?_⟩
      have hx : rank (takeHighest x q).1 ≤ rank x := by
        rcases List.mem_cons.1 (hp.mem_iff.1 (List.mem_cons_self (a := x))) with h | h
        · rw [← h]
        · exact hr _ h
      rcases List.mem_cons.1 hy with rfl | hy
      · show rank (takeHighest x q).1 ≤ rank _; omega
      · exact hr y hy
    · next h =>
      obtain ⟨hp, hr⟩ := ih best
      have h := mt (higher_iff x best).2 h
      refine ⟨(List.Perm.swap x best q).trans ((List.Perm.cons x hp).trans (List.Perm.swap _ _ _)),
        fun y hy => ?_⟩
      have hx : rank (takeHighest best q).1 ≤ rank best := by
        rcases List.mem_cons.1 (hp.mem_iff.1 (List.mem_cons_self (a := best))) with h | h
        · rw [← h]
        · exact hr _ h
      rcases List.mem_cons.1 hy with rfl | hy
      · show rank (takeHighest best q).1 ≤ rank _; omega
      · exact hr y hy

/-- What an extraction returns: the collection rearranged, its first node of least rank. -/
theorem extractHighest_spec {q : List CodeTree} {x : CodeTree} {r : List CodeTree}
    (h : extractHighest q = some (x, r)) : q.Perm (x :: r) ∧ ∀ y ∈ r, rank x ≤ rank y := by
  cases q with
  | nil => simp [extractHighest] at h
  | cons a q =>
    have := takeHighest_spec a q
    simp only [extractHighest, Option.some.injEq] at h
    rw [h] at this
    exact this

@[simp] theorem extractHighest_eq_none {q : List CodeTree} : extractHighest q = none ↔ q = [] := by
  cases q <;> simp [extractHighest]

theorem extractHighest_length {q : List CodeTree} {x : CodeTree} {r : List CodeTree}
    (h : extractHighest q = some (x, r)) : q.length = r.length + 1 := by
  simpa using (extractHighest_spec h).1.length_eq

/-- A property of collections that no rearrangement and no merge loses holds of the tree that the
loop builds. -/
theorem buildLoop_induction {P : List CodeTree → Prop}
    (perm : ∀ q q' : List CodeTree, q.Perm q' → P q → P q')
    (merge : ∀ a b q, P (a :: b :: q) → P (mergeNodes a b :: q))
    {fuel : Nat} {q : List CodeTree} {t : CodeTree} (h : buildLoop fuel q = some t) (hq : P q) : P [t] := by
  induction fuel generalizing q with
  | zero => simp [buildLoop] at h
  | succ fuel ih =>
    unfold buildLoop at h
    split at h
    · simp at h
    · next a q₁ ha =>
      have hp := (extractHighest_spec ha).1
      split at h
      · next hn =>
        rw [extractHighest_eq_none] at hn
        subst hn
        injection h with h
        subst h
        exact perm _ _ hp hq
      · next b q₂ hb =>
        have hp₂ := (extractHighest_spec hb).1
        exact ih h (merge a b q₂ (perm _ _ (hp.trans (hp₂.cons a)) hq))

/-- With a round for each node the loop ends with a tree, unless the collection is empty. -/
theorem buildLoop_isSome {fuel : Nat} {q : List CodeTree} (hq : q ≠ []) (hf : q.length ≤ fuel) :
    (buildLoop fuel q).isSome := by
  induction fuel generalizing q with
  | zero => exact absurd (List.length_eq_zero_iff.1 (Nat.le_zero.1 hf)) hq
  | succ fuel ih =>
    unfold buildLoop
    split
    · next h => exact absurd (extractHighest_eq_none.1 h) hq
    · next a q₁ ha =>
      split
      · simp
      · next b q₂ hb =>
        have h1 := extractHighest_length ha
        have h2 := extractHighest_length hb
        exact ih (by simp) (by simp; omega)

@[simp] theorem buildFrom_nil : buildFrom [] = none := rfl

theorem buildFrom_isSome {q : List CodeTree} (hq : q ≠ []) : (buildFrom q).isSome :=
  buildLoop_isSome hq (by omega)

@[simp] theorem leafSyms_leaf (sym : Sym) (count : NodeCount) :
    (CodeTree.leaf sym count).leafSyms = [sym] := rfl

@[simp] theorem leafSyms_node (sym : Sym) (count : NodeCount) (left right : CodeTree) :
    (CodeTree.node sym count left right).leafSyms = left.leafSyms ++ right.leafSyms := by
  simp [CodeTree.leafSyms, CodeTree.leaves]

/-- Two tables with the same entries have the same leaves, total and number of symbols. -/
theorem leavesOf_congr {f g : Memory} (h : ∀ sym, f.read (ftIndex sym) = g.read (ftIndex sym)) :
    leavesOf f = leavesOf g := by simp [leavesOf, h]

theorem totalOf_congr {f g : Memory} (h : ∀ sym, f.read (ftIndex sym) = g.read (ftIndex sym)) :
    totalOf f = totalOf g := by simp [totalOf, h]

theorem nsymOf_congr {f g : Memory} (h : ∀ sym, f.read (ftIndex sym) = g.read (ftIndex sym)) :
    nsymOf f = nsymOf g := by simp [nsymOf, h]

@[simp] theorem symbols_length : symbols.length = 256 := by simp [symbols, Config.nsymMax]

theorem mem_symbols (sym : Sym) : sym ∈ symbols :=
  List.mem_map.2 ⟨sym.toNat, List.mem_range.2 sym.isLt, by simp⟩

theorem symbols_nodup : symbols.Nodup := by
  refine List.Nodup.map_on (fun a ha b hb h => ?_) List.nodup_range
  have ha := List.mem_range.1 ha
  have hb := List.mem_range.1 hb
  have := congrArg BitVec.toNat h
  simp only [BitVec.toNat_ofNat, Config.nsymMax] at *
  omega

end Sys2Proof.Machine
end

