-- ==== Sys2Proof/Laws/Exec.lean ====
section
/-! SUPPORT. The laws of the shared operations of the meanings: the RUN-mode gate (60_exceptions.md
R217), a sequence of `BW_put` (43_encode_decode.md R180), and the decoder's walk (R182). -/

namespace Sys2Proof.Machine

theorem inRun_run {s : State} (h : s.mode = .run) (body : State → State) :
    inRun s body = .next (body s) := by simp [inRun, h]

theorem inRun_faulted {s : State} (h : s.mode = .faulted) (body : State → State) :
    inRun s body = .next s := by simp [inRun, h]

/-- The gate always answers a next state. -/
theorem inRun_next_iff {s t : State} {body : State → State} :
    inRun s body = .next t ↔ (s.mode = .run ∧ t = body s) ∨ (s.mode = .faulted ∧ t = s) := by
  cases h : s.mode <;> simp [inRun, h, eq_comm]

/-- Every meaning is an effect behind the gate. -/
theorem exec_gated (i : Instr) : ∃ effect, ∀ s, exec i s = inRun s effect := by
  cases i <;> exact ⟨_, fun _ => rfl⟩

/-! ### A sequence of `BW_put` -/

@[simp] theorem bwPutAll_nil (s : State) : bwPutAll [] s = s := rfl

@[simp] theorem bwPutAll_cons (b : Bit) (c : List Bit) (s : State) :
    bwPutAll (b :: c) s = bwPutAll c (bwPut b s) := rfl

theorem bwPutAll_frame (c : List Bit) (s : State) :
    ∃ buf cnt emitted,
      bwPutAll c s = { s with bwBuf := buf, bwCnt := cnt, bout := s.bout ++ emitted } := by
  induction c generalizing s with
  | nil => exact ⟨s.bwBuf, s.bwCnt, [], by simp⟩
  | cons b c ih =>
    obtain ⟨buf, cnt, e, h⟩ := bwPut_frame b s
    obtain ⟨buf', cnt', e', h'⟩ := ih (bwPut b s)
    refine ⟨buf', cnt', e ++ e', ?_⟩
    rw [bwPutAll_cons, h', h]
    simp

theorem writerInv_bwPutAll {s : State} (h : writerInv s) (c : List Bit) :
    writerInv (bwPutAll c s) := by
  induction c generalizing s with
  | nil => exact h
  | cons b c ih => exact ih (writerInv_bwPut h b)

/-- A sequence of `BW_put`: its bits follow every bit written before them (20_memory.md R63). -/
theorem writtenBits_bwPutAll {s : State} (h : writerInv s) (c : List Bit) :
    writtenBits (bwPutAll c s) = writtenBits s ++ c := by
  induction c generalizing s with
  | nil => simp
  | cons b c ih => rw [bwPutAll_cons, ih (writerInv_bwPut h b), writtenBits_bwPut h]; simp

/-! ### The decoder's walk -/

theorem walk_frame (fill : Nat → Byte) (t : CodeTree) (s : State) :
    ∃ buf cnt bin eos draws, (walk fill t s).2 =
      { s with brBuf := buf, brCnt := cnt, bin := bin, eos := eos, draws := draws } := by
  induction t generalizing s with
  | leaf sym count => exact ⟨_, _, _, _, _, rfl⟩
  | node sym count left right ihl ihr =>
    obtain ⟨b1, c1, i1, e1, d1, h1⟩ := brGet_frame fill s
    unfold walk
    simp only
    split
    · obtain ⟨b2, c2, i2, e2, d2, h2⟩ := ihr (brGet fill s).2
      rw [h2, h1]; exact ⟨_, _, _, _, _, rfl⟩
    · obtain ⟨b2, c2, i2, e2, d2, h2⟩ := ihl (brGet fill s).2
      rw [h2, h1]; exact ⟨_, _, _, _, _, rfl⟩

theorem walk_bin_suffix (fill : Nat → Byte) (t : CodeTree) (s : State) :
    (walk fill t s).2.bin <:+ s.bin := by
  induction t generalizing s with
  | leaf sym count => exact List.suffix_refl _
  | node sym count left right ihl ihr =>
    unfold walk
    simp only
    split
    · exact (ihr _).trans (brGet_bin_suffix fill s)
    · exact (ihl _).trans (brGet_bin_suffix fill s)

theorem walk_eos (fill : Nat → Byte) (t : CodeTree) {s : State} (h : s.eos = true) :
    (walk fill t s).2.eos = true := by
  induction t generalizing s with
  | leaf sym count => exact h
  | node sym count left right ihl ihr =>
    unfold walk
    simp only
    split
    · exact ihr (brGet_eos fill h)
    · exact ihl (brGet_eos fill h)

/-- The walk ends at a leaf of its tree. -/
theorem walk_mem_leafSyms (fill : Nat → Byte) (t : CodeTree) (s : State) :
    (walk fill t s).1 ∈ t.leafSyms := by
  induction t generalizing s with
  | leaf sym count => simp [walk]
  | node sym count left right ihl ihr =>
    unfold walk
    simp only
    split
    · simp [ihr]
    · simp [ihl]

theorem decodeSym_frame (fill : Nat → Byte) (t : CodeTree) (s : State) :
    ∃ buf cnt bin eos draws, (decodeSym fill t s).2 =
      { s with brBuf := buf, brCnt := cnt, bin := bin, eos := eos, draws := draws } := by
  unfold decodeSym
  split
  · exact brGet_frame fill s
  · exact walk_frame fill _ s

theorem decodeSym_bin_suffix (fill : Nat → Byte) (t : CodeTree) (s : State) :
    (decodeSym fill t s).2.bin <:+ s.bin := by
  unfold decodeSym
  split
  · exact brGet_bin_suffix fill s
  · exact walk_bin_suffix fill _ s

theorem decodeSym_eos (fill : Nat → Byte) (t : CodeTree) {s : State} (h : s.eos = true) :
    (decodeSym fill t s).2.eos = true := by
  unfold decodeSym
  split
  · exact brGet_eos fill h
  · exact walk_eos fill _ h

end Sys2Proof.Machine
end

