-- ==== Sys2Proof/Laws/PerInstr.lean ====
section
/-! SUPPORT. Per-instruction laws of the syntax. `WellFormedWord`: the assembled word of a command is a
well-formed word (30_encoding.md R93, R99). -/

namespace Sys2Proof.Laws

/-- The assembled word has an assigned OPC, a zero RSV, and zeros in the fields it does not use. -/
def WellFormedWord.Statement (i : Instr) : Prop := wordWF (encode i) = true

theorem WellFormedWord.nop : WellFormedWord.Statement .nop := rfl
theorem WellFormedWord.fclr : WellFormedWord.Statement .fclr := rfl
theorem WellFormedWord.fwr (sym : Sym) (imm : Count) : WellFormedWord.Statement (.fwr sym imm) := by
  simp [WellFormedWord.Statement, wordWF, encode, usesOf]
theorem WellFormedWord.finc (sym : Sym) : WellFormedWord.Statement (.finc sym) := by
  simp [WellFormedWord.Statement, wordWF, encode, usesOf]
theorem WellFormedWord.frd (sym : Sym) : WellFormedWord.Statement (.frd sym) := by
  simp [WellFormedWord.Statement, wordWF, encode, usesOf]
theorem WellFormedWord.build : WellFormedWord.Statement .build := rfl
theorem WellFormedWord.enc (sym : Sym) : WellFormedWord.Statement (.enc sym) := by
  simp [WellFormedWord.Statement, wordWF, encode, usesOf]
theorem WellFormedWord.dec : WellFormedWord.Statement .dec := rfl
theorem WellFormedWord.wbit (b : Bit) : WellFormedWord.Statement (.wbit b) := by
  simp [WellFormedWord.Statement, wordWF, encode, usesOf]
theorem WellFormedWord.wflush : WellFormedWord.Statement .wflush := rfl
theorem WellFormedWord.rinit : WellFormedWord.Statement .rinit := rfl
theorem WellFormedWord.rbit : WellFormedWord.Statement .rbit := rfl

end Sys2Proof.Laws
end

