-- ==== Sys2Proof/Laws/Registers.lean ====
section
/-! SUPPORT. The bits of the packed registers STATUS, BWSTATE and BRSTATE (10_state.md R41, R43). -/

namespace Sys2Proof.Machine

theorem getLsbD_statusWord (s : State) (i : Nat) :
    (statusWord s).getLsbD i =
      if i = 0 then faultFlag s
      else if i < 3 then (treeField s).getLsbD (i - 1)
      else if i = 3 then singleFlag s
      else if i = 4 then rinitFlag s
      else if i = 5 then eosFlag s
      else false := by
  unfold statusWord
  simp only [BitVec.getLsbD_append]
  rcases i with _ | _ | _ | _ | _ | _ | i <;> simp

theorem getLsbD_bwStateWord (s : State) (i : Nat) :
    (bwStateWord s).getLsbD i =
      if i < 8 then s.bwBuf.getLsbD i
      else if i < 11 then (BitVec.ofNat 3 s.bwCnt.val).getLsbD (i - 8)
      else false := by
  unfold bwStateWord
  simp only [BitVec.getLsbD_append]
  split
  · rfl
  · have : i - 8 < 3 ↔ i < 11 := by omega
    simp only [this, BitVec.getLsbD_zero]

theorem getLsbD_brStateWord (s : State) (i : Nat) :
    (brStateWord s).getLsbD i =
      if i < 8 then s.brBuf.getLsbD i
      else if i < 12 then (BitVec.ofNat 4 s.brCnt.val).getLsbD (i - 8)
      else false := by
  unfold brStateWord
  simp only [BitVec.getLsbD_append]
  split
  · rfl
  · have : i - 8 < 4 ↔ i < 12 := by omega
    simp only [this, BitVec.getLsbD_zero]

end Sys2Proof.Machine
end

