-- ==== Sys2Proof/Laws/Step.lean ====
section
/-! SUPPORT. Everything a step can do (20_memory.md R71 to R73), said once. -/

namespace Sys2Proof.Machine

/-- A step is the core's on a command, the core's on an illegal word, a host action, or idle. -/
theorem step_cases (s : State) :
    (∃ w i, s.cmd = some w ∧ decode w = some i ∧ step s = exec i (acceptWord s)) ∨
    (∃ w, s.cmd = some w ∧ decode w = none ∧ step s = execIllegal w (acceptWord s)) ∨
    (∃ a rest, s.cmd = none ∧ s.host.script = a :: rest ∧
      step s = .next (hostAct a { s with host := { s.host with script := rest } })) ∨
    (s.cmd = none ∧ s.host.script = [] ∧ step s = .next s) := by
  cases hc : s.cmd with
  | some w =>
    cases hd : decode w with
    | some i => exact .inl ⟨w, i, rfl, hd, by simp [step, hc, coreStep, hd]⟩
    | none => exact .inr (.inl ⟨w, rfl, hd, by simp [step, hc, coreStep, hd]⟩)
  | none =>
    cases hs : s.host.script with
    | cons a rest => exact .inr (.inr (.inl ⟨a, rest, rfl, rfl, by simp [step, hc, hostStep, hs]⟩))
    | nil => exact .inr (.inr (.inr ⟨rfl, rfl, by simp [step, hc, hostStep, hs]⟩))

end Sys2Proof.Machine
end

