-- ==== Sys2Proof/Tests/Slice0.lean ====
section
/-! SUPPORT. The model's own tests. Expected results are the words of 30_encoding.md and the vectors of
95_test_vectors.md. Part 4 gives, for each statement that has hypotheses, values that meet them. -/

namespace Sys2Proof.Tests

open Sys2Proof Sys2Proof.Machine

set_option maxRecDepth 20000

/-! ### Helpers -/

/-- The state of a next outcome. -/
def nextOf (o : Outcome) : Option State :=
  match o with
  | .next s => some s
  | .fault _ => none
  | .refused _ => none

/-- One step of a state with a command word at its port. -/
def stepOn (w : Word) (s : State) : Option State := nextOf (step { s with cmd := some w })

/-- The table of V-BLD-1. -/
def abcTable : Memory := [(0x61, 3), (0x62, 1), (0x63, 1)]

/-- The tree of V-BLD-1. -/
def abcTree : CodeTree :=
  .node 0x63 5 (.node 0x63 2 (.leaf 0x63 1) (.leaf 0x62 1)) (.leaf 0x61 3)

/-- The state after the BUILD of V-BLD-1. -/
def abcState : State := { State.reset with ft := abcTable, ts := .built abcTree, total := 5, nsym := 3 }

/-- The state after the BUILD of V-BLD-9. -/
def singleState : State :=
  { State.reset with ft := [(0x41, 3)], ts := .built (.leaf 0x41 3), total := 3, nsym := 1 }

/-- A state with the reader constructed on one byte. -/
def withReader (v : Byte) (s : State) : State := { s with brInit := true, brBuf := v }

/-- The state after V-ERR-1. -/
def faultedState : State :=
  { State.reset with mode := .faulted, errc := 2, errcmd := 0x3041000000000000 }

/-- The writer of V-BIO-3 with seven bits pending. -/
def sevenPending : State := { State.reset with bwBuf := 0xFE, bwCnt := 7 }

/-! ### 1. Well-formedness: an ill-formed word or operand for each check -/

theorem test_wf_refuses_unassigned_opc : wordWF 0xFF00000000000000 = false := by decide
theorem test_wf_refuses_reserved : wordWF 0x4000000200000000 = false := by decide
theorem test_wf_refuses_unused_sym : wordWF 0x2001000000000000 = false := by decide
theorem test_wf_refuses_unused_b : wordWF 0x1100000100000000 = false := by decide
theorem test_wf_refuses_unused_imm : wordWF 0x0000000000000001 = false := by decide
theorem test_wf_accepts_fwr : wordWF 0x11FF0000FFFFFFFF = true := by decide
theorem test_wf_refuses_sym_operand : symOperandOk 256 = false := by decide
theorem test_wf_refuses_count_operand : countOperandOk 0x100000000 = false := by decide
theorem test_wf_refuses_bit_operand : bitOperandOk 2 = false := by decide
theorem test_wf_accepts_operands :
    symOperandOk 255 = true ∧ countOperandOk 0xFFFFFFFF = true ∧ bitOperandOk 1 = true := by decide

/-! ### 2. Decoding: words written bit by bit from the "encoding" of the opcode table -/

theorem test_decode_nop :
    decode 0b0000000000000000000000000000000000000000000000000000000000000000 = some .nop := by decide
theorem test_decode_fclr :
    decode 0b0001000000000000000000000000000000000000000000000000000000000000 = some .fclr := by decide
theorem test_decode_fwr :
    decode 0b0001000101100001000000000000000010000000000000000000000000000101 =
      some (.fwr 0x61 0x80000005) := by decide
theorem test_decode_finc :
    decode 0b0001001010000001000000000000000000000000000000000000000000000000 = some (.finc 0x81) := by
  decide
theorem test_decode_frd :
    decode 0b0001001101110010000000000000000000000000000000000000000000000000 = some (.frd 0x72) := by
  decide
theorem test_decode_build :
    decode 0b0010000000000000000000000000000000000000000000000000000000000000 = some .build := by decide
theorem test_decode_enc :
    decode 0b0011000001000001000000000000000000000000000000000000000000000000 = some (.enc 0x41) := by
  decide
theorem test_decode_dec :
    decode 0b0011000100000000000000000000000000000000000000000000000000000000 = some .dec := by decide
theorem test_decode_wbit :
    decode 0b0100000000000000000000000000000100000000000000000000000000000000 = some (.wbit true) := by
  decide
theorem test_decode_wflush :
    decode 0b0100000100000000000000000000000000000000000000000000000000000000 = some .wflush := by decide
theorem test_decode_rinit :
    decode 0b0101000000000000000000000000000000000000000000000000000000000000 = some .rinit := by decide
theorem test_decode_rbit :
    decode 0b0101000100000000000000000000000000000000000000000000000000000000 = some .rbit := by decide
theorem test_decode_table_word :
    decodeTableWord 64 0x1161000000000005 = some (.fwr 0x61 5) ∧
      decodeTableWord 64 0xFF00000000000000 = none ∧ decodeTableWord 72 0 = none := by decide

/-! ### 3. One step of each command (the vector is named in the theorem) -/

theorem test_nop_V_SYS_1 : stepOn 0x0000000000000000 abcState = some { abcState with pos := 1 } := by
  decide
theorem test_illegal_V_SYS_2 :
    stepOn 0xFF00000000000000 State.reset = some
      { State.reset with mode := .faulted, errc := 1, errcmd := 0xFF00000000000000, pos := 1 } := by
  decide
theorem test_fclr_V_FT_2 :
    ((stepOn 0x1000000000000000 abcState).map fun s => (s.ft.read 0x61, s.ts)) =
      some (0, .built abcTree) := by decide
theorem test_fwr_between_entries :
    ((stepOn 0x1162000000000000 abcState).map (·.ft)) = some [(0x61, 3), (0x63, 1)] := by decide
theorem test_fwr_new_entry :
    ((stepOn 0x1100000000000009 abcState).map (·.ft)) =
      some [(0, 9), (0x61, 3), (0x62, 1), (0x63, 1)] := by decide
theorem test_finc_V_FT_3 :
    ((stepOn 0x1207000000000000 { State.reset with ft := [(7, 0xFFFFFFFE)] }).map fun s =>
      (s.ft.read 7, s.mode)) = some (0xFFFFFFFF, .run) := by decide
theorem test_finc_V_FT_4 :
    ((stepOn 0x1207000000000000 { State.reset with ft := [(7, 0xFFFFFFFF)] }).map fun s =>
      (s.ft.read 7, s.errc, s.errcmd, statusWord s)) =
      some (0xFFFFFFFF, 5, 0x1207000000000000, 0x1) := by decide
theorem test_frd : ((stepOn 0x1361000000000000 abcState).map (·.res)) = some 3 := by decide
theorem test_build_V_BLD_1 :
    stepOn 0x2000000000000000 { State.reset with ft := abcTable } = some { abcState with pos := 1 } := by
  decide
theorem test_build_V_BLD_7 :
    ((stepOn 0x2000000000000000
        { State.reset with ft := [(0, 0xFFFFFFFF), (1, 0xFFFFFFFF), (2, 0xFFFFFFFF)] }).map fun s =>
      (s.ts, s.total)) =
      some (.built (.node 0 0x2FFFFFFFD (.leaf 0 0xFFFFFFFF)
        (.node 2 0x1FFFFFFFE (.leaf 2 0xFFFFFFFF) (.leaf 1 0xFFFFFFFF))), 0x2FFFFFFFD) := by decide
theorem test_enc_crosses_a_byte :
    ((stepOn 0x3062000000000000 { abcState with bwBuf := 0xFE, bwCnt := 7 }).map fun s =>
      (s.bout, bwStateWord s)) = some ([0xFE], 0x180) := by decide
theorem test_enc_V_ERR_3 :
    ((stepOn 0x3003000000000000 abcState).map fun s => (s.errc, s.errcmd, statusWord s, s.bout)) =
      some (4, 0x3003000000000000, 0x5, []) := by decide
theorem test_dec_first_of_V_ED_4 :
    ((stepOn 0x3100000000000000 (withReader 0xA0 abcState)).map fun s =>
      (s.res, s.sout, brStateWord s)) = some (0x61, [0x61], 0x1A0) := by decide
theorem test_dec_V_ED_5 :
    ((stepOn 0x3100000000000000 (withReader 0xFF singleState)).map fun s =>
      (s.res, s.sout, brStateWord s)) = some (0x41, [0x41], 0x1FF) := by decide
theorem test_wbit_eighth_of_V_BIO_3 :
    ((stepOn 0x4000000000000000 sevenPending).map fun s => (s.bout, bwStateWord s)) =
      some ([0xFE], 0) := by decide
theorem test_wbit_second_of_V_BIO_1 :
    ((stepOn 0x4000000000000000 { State.reset with bwBuf := 0x80, bwCnt := 1 }).map bwStateWord) =
      some 0x280 := by decide
theorem test_wflush_V_BIO_5 :
    ((stepOn 0x4100000000000000 { State.reset with bwBuf := 0x80, bwCnt := 1 }).map fun s =>
      (s.bout, bwStateWord s)) = some ([0x80], 0) := by decide
theorem test_wflush_V_BIO_4 :
    stepOn 0x4100000000000000 State.reset = some { State.reset with pos := 1 } := by decide
theorem test_rinit_V_BIO_2 :
    ((stepOn 0x5000000000000000 { State.reset with bin := [0xAF, 0x80] }).map fun s =>
      (brStateWord s, s.bin, statusWord s)) = some (0x0AF, [0x80], 0x10) := by decide
theorem test_rinit_V_BIO_6 :
    ((stepOn 0x5000000000000000 State.reset).map fun s => (statusWord s, s.brCnt, s.draws)) =
      some (0x30, 0, 1) := by decide
theorem test_rbit_ninth_of_V_BIO_2 :
    ((stepOn 0x5100000000000000
        { State.reset with brInit := true, brBuf := 0xAF, brCnt := 8, bin := [0x80] }).map fun s =>
      (s.res, brStateWord s, s.bin)) = some (1, 0x180, []) := by decide
theorem test_rbit_V_ERR_6 :
    ((stepOn 0x5100000000000000 State.reset).map fun s => (s.errc, s.errcmd, statusWord s)) =
      some (6, 0x5100000000000000, 0x1) := by decide
theorem test_discarded_V_ERR_8 :
    stepOn 0x4000000100000000 faultedState = some { faultedState with pos := 1 } := by decide
theorem test_reset_V_ERR_9 :
    nextOf (step { faultedState with host := ⟨[.assertReset], [], [], []⟩ }) = some State.reset := by
  decide
theorem test_host_reads_status :
    (nextOf (step { abcState with host := ⟨[.readReg 2], [], [], []⟩ })).map (·.host.reads) =
      some [(2, 0x4)] := by decide
theorem test_fetch_word :
    (nextOf (step (State.reset.withFetchWord 64 0x1161000000000005))).map (·.ft) = some [(0x61, 5)] := by
  decide
theorem test_observe_reset :
    observe State.reset =
      ⟨[], [], [], [0x48554646, 1, 0, 0, 0, 0, 0, 0, 0, 0, 0, 0, 0x00FF0120], false⟩ := by decide

/-! The assembler (30_encoding.md R99 to R101; program P6). -/

theorem test_asm_fwr : assembleLine "FWR 'a', 5 ; count".toList = some [0x1161000000000005] := by decide
theorem test_asm_case_and_bases :
    assembleLine "fwr 0x61, 0b101".toList = some [0x1161000000000005] := by decide
theorem test_asm_out_of_range :
    assembleLine "ENC 256".toList = none ∧ assembleLine "WBIT 2".toList = none ∧
      assembleLine "NOP 1".toList = none := by decide
theorem test_asm_empty_line : assembleLine " ; nothing".toList = some [] := by decide
theorem test_asm_fload :
    assembleWords (.fload [(0x61, 3), (0x62, 1), (0x63, 1)]) = some
      [0x1000000000000000, 0x1161000000000003, 0x1162000000000001, 0x1163000000000001] := by decide
theorem test_asm_encs :
    assembleWords (.encs ['a', 'b', 'c']) = some
      [0x3061000000000000, 0x3062000000000000, 0x3063000000000000, 0x4100000000000000] := by decide
theorem test_asm_wbits :
    assembleWords (.wbits ['1', '0']) = some [0x4000000100000000, 0x4000000000000000] := by decide
theorem test_asm_decn_fscan :
    assembleWords (.decn 2) = some [0x3100000000000000, 0x3100000000000000] ∧
      assembleWords (.fscan ['a']) = some [0x1261000000000000] := by decide

/-! ### 4. Witnesses: values that meet the hypotheses of the statements -/

theorem writerInv_reset : writerInv State.reset := fun _ _ => by simp [State.reset]

theorem writerInv_seven : writerInv sevenPending := fun i hi => by
  have h0 : i = 0 := by simp only [sevenPending, State.reset] at hi; omega
  subst h0
  decide

theorem writerInv_one (s : State) (hb : s.bwBuf = 0x80) (hc : s.bwCnt = 1) : writerInv s := fun i hi => by
  rw [hc] at hi
  rw [hb]
  have h6 : i ≤ 6 := hi
  interval_cases i <;> decide

theorem inv_reset : Inv State.reset where
  ft := by decide
  tree := by decide
  writer := writerInv_reset
  reader := fun _ => by decide
  error := by decide

theorem inv_abc : Inv abcState where
  ft := by decide
  tree := by decide
  writer := fun _ _ => by simp [abcState, State.reset]
  reader := fun _ => by decide
  error := by decide

theorem witness_ResetSetsEveryElement :
    ({ faultedState with host := ⟨[.assertReset], [], [], []⟩ } : State).cmd = none ∧
    ({ faultedState with host := ⟨[.assertReset], [], [], []⟩ } : State).host.script = .assertReset :: [] ∧
    ({ faultedState with cmd := some 0 } : State).cmd = some 0 := by decide

theorem witness_EncodeOfDecodeIsTheWord : decode 0x11FF0000FFFFFFFF = some (.fwr 0xFF 0xFFFFFFFF) := by
  decide

theorem witness_DecodeFindsTheOneMatchingRow :
    State.reset.mode = .run ∧
    ({ State.reset with cmd := some 0x4000000000000002 } : State).cmd = some 0x4000000000000002 ∧
    decode 0x4000000000000002 = none := by decide

/-- The ends of the unassigned ranges of OPC, and the assigned values beside them. -/
theorem witness_IllegalWordsAreTheIllFormedOnes :
    (∀ n ∈ [0x01, 0x0F, 0x14, 0x1F, 0x21, 0x2F, 0x32, 0x3F, 0x42, 0x4F, 0x52, 0xFF],
      usesOf (BitVec.ofNat 8 n) = none) ∧
    (∀ n ∈ [0x00, 0x10, 0x11, 0x12, 0x13, 0x20, 0x30, 0x31, 0x40, 0x41, 0x50, 0x51],
      (usesOf (BitVec.ofNat 8 n)).isSome) ∧
    State.reset.mode = .run ∧ decode 0xFF00000000000000 = none := by decide

theorem witness_StepExecutesThePresentedCommand :
    ({ abcState with cmd := some 0x3061000000000000 } : State).cmd = some 0x3061000000000000 ∧
    decode 0x3061000000000000 = some (.enc 0x61) := by decide

theorem witness_IllegalWordRaisesIllegalCmd :
    decode 0x0000000000000001 = none ∧
    ({ State.reset with cmd := some 1 } : State).cmd = some 1 ∧
    ({ State.reset with cmd := some 1 } : State).mode = .run ∧
    ({ faultedState with cmd := some 1 } : State).cmd = some 1 ∧
    ({ faultedState with cmd := some 1 } : State).mode = .faulted := by decide

theorem witness_FaultedDiscardsEveryWord :
    faultedState.mode = .faulted ∧
    ({ faultedState with cmd := some 0xFF00000000000000 } : State).cmd = some 0xFF00000000000000 ∧
    step faultedState = .next faultedState ∧ ¬ ResetIsNext faultedState ∧
    (∃ t, step { faultedState with host := ⟨[.assertReset], [], [], []⟩ } = .next t) ∧
    ResetIsNext { faultedState with host := ⟨[.assertReset], [], [], []⟩ } := by
  refine ⟨rfl, rfl, rfl, ?_, ⟨_, rfl⟩, rfl, rfl⟩
  rintro ⟨-, h⟩
  exact absurd h (by decide)

theorem witness_EveryWordAdvancesThePosition :
    ({ faultedState with cmd := some 0 } : State).cmd = some 0 := rfl

theorem witness_IdleKeepsAllState : abcState.cmd = none ∧ abcState.host.script = [] := by decide

/-- A host step for every action; the drains take all the bytes there are. -/
theorem witness_HostActionsTouchOnlyTheirPart :
    ∀ a ∈ [HostAction.push 0, .appendBin [1], .drainBout 2, .drainSout 1, .readReg 63, .assertReset],
      ({ abcState with bout := [1, 2], sout := [3], host := ⟨[a], [], [], []⟩ } : State).cmd = none ∧
      ({ abcState with bout := [1, 2], sout := [3], host := ⟨[a], [], [], []⟩ } : State).host.script
        = a :: [] ∧
      2 ≤ ({ abcState with bout := [1, 2], sout := [3] } : State).bout.length ∧
      1 ≤ ({ abcState with bout := [1, 2], sout := [3] } : State).sout.length := by decide

theorem witness_HostActionsTouchOnlyTheirPart_busy :
    ({ abcState with cmd := some 0, host := ⟨[.drainBout 0], [], [], []⟩ } : State).cmd = some 0 ∧
    (∃ t, step { abcState with cmd := some 0, host := ⟨[.drainBout 0], [], [], []⟩ } = .next t) :=
  ⟨rfl, _, rfl⟩

theorem witness_RegisterMapValues : HostAction.appendBin [] ≠ .assertReset := by decide

theorem witness_UnmappedIndicesAndReservedBitsReadZero :
    0x0D ≤ (0x0D : RegIndex).toNat ∧ 0x0D ≤ (0x3F : RegIndex).toNat := by decide

theorem witness_StatusFields :
    State.reset.ts = .none ∧ ({ State.reset with ts := .empty } : State).ts = .empty ∧
    abcState.ts = .built abcTree := by decide

theorem witness_FaultOutputFollowsTheMode :
    faultO ({ State.reset with cmd := some 0x3041000000000000 } : State) = false ∧
    (∃ t, step { State.reset with cmd := some 0x3041000000000000 } = .next t ∧ faultO t = true) ∧
    faultO ({ faultedState with host := ⟨[.assertReset], [], [], []⟩ } : State) = true ∧
    (∃ t, step { faultedState with host := ⟨[.assertReset], [], [], []⟩ } = .next t ∧
      faultO t = false) := ⟨rfl, ⟨_, rfl, rfl⟩, rfl, _, rfl, rfl⟩

theorem witness_run_mode : State.reset.mode = .run ∧ abcState.mode = .run := by decide

theorem witness_FclrClearsTheTable : abcState.mode = .run := rfl

theorem witness_FwrWritesOneEntry : abcState.mode = .run ∧ (0 : Nat) ≠ ftIndex 0xFF := by decide

theorem witness_FincCountsOneOccurrence :
    ({ State.reset with ft := [(7, 0xFFFFFFFE)] } : State).mode = .run ∧
    ({ State.reset with ft := [(7, 0xFFFFFFFE)] } : State).ft.read (ftIndex 7) ≠ 0xFFFFFFFF ∧
    ({ State.reset with ft := [(7, 0xFFFFFFFF)] } : State).ft.read (ftIndex 7) = 0xFFFFFFFF := by decide

theorem witness_FrdReadsOneEntry : abcState.mode = .run := rfl

theorem build_abc : buildTree abcTable = some abcTree := by decide

theorem build_single : buildTree [(0x41, 3)] = some (.leaf 0x41 3) := by decide

theorem build_empty : buildTree [] = none := by decide

theorem witness_BuildComputesTreeTotalAndNsym :
    State.reset.mode = .run ∧ buildTree State.reset.ft = none ∧
    treeStateOf (buildTree State.reset.ft) = .empty ∧
    abcState.mode = .run ∧ buildTree abcState.ft = some abcTree ∧
    treeStateOf (buildTree abcState.ft) ≠ .empty := by decide

theorem witness_EncWritesTheCodeOfItsSymbol :
    State.reset.mode = .run ∧ State.reset.ts = .none ∧
    ({ State.reset with ts := .empty } : State).ts = .empty ∧
    abcState.ts = .built abcTree ∧ abcTree.code 0x64 = none ∧
    abcTree.code 0x62 = some [false, true] ∧
    writerInv { abcState with bwBuf := sevenPending.bwBuf, bwCnt := sevenPending.bwCnt } :=
  ⟨rfl, rfl, rfl, rfl, by decide, by decide, writerInv_seven⟩

theorem abc_wf : abcTree.wf = true := by decide

theorem witness_EncSequenceWritesTheConcatenation :
    abcTree.wf = true ∧ abcTree.code 0x61 = some [true] ∧ abcState.mode = .run ∧
    abcState.ts = .built abcTree ∧
    abcTree.codes [0x61, 0x62, 0x63] = some [true, false, true, false, false] ∧
    abcTree.codes [] = some [] ∧ writerInv abcState ∧ abcState.bwCnt = 0 :=
  ⟨by decide, by decide, rfl, rfl, by decide, rfl, fun _ _ => by simp [abcState, State.reset], rfl⟩

theorem witness_DecReturnsTheLeafItsBitsSelect :
    State.reset.mode = .run ∧ State.reset.ts = .none ∧
    ({ State.reset with ts := .empty } : State).ts = .empty ∧
    abcState.ts = .built abcTree ∧ abcState.brInit = false ∧
    (withReader 0xFF singleState).ts = .built (.leaf 0x41 3) ∧
    (withReader 0xFF singleState).brInit = true ∧
    (withReader 0xA0 abcState).mode = .run ∧ (withReader 0xA0 abcState).brInit = true ∧
    (withReader 0xA0 abcState).ts = .built abcTree := by decide

theorem witness_DecReadsAtMostDepthBits :
    (withReader 0xA0 abcState).mode = .run ∧ (withReader 0xA0 abcState).ts = .built abcTree ∧
    (withReader 0xA0 abcState).brInit = true ∧
    (withReader 0xFF singleState).ts = .built (.leaf 0x41 3) ∧ (CodeTree.leaf 0x41 3).depth = 0 ∧
    abcTree.wf = true ∧ (List.replicate 255 true).length = 255 := by
  refine ⟨rfl, rfl, rfl, rfl, rfl, by decide, List.length_replicate⟩

/-- The walk may be drawn from the root, and from a node that the last unread bit leads to. -/
theorem witness_EveryLeafBelowADrawnNodeIsPossible :
    (withReader 0 { abcState with brCnt := 8 }).mode = .run ∧
    (withReader 0 { abcState with brCnt := 8 }).ts = .built abcTree ∧
    (withReader 0 { abcState with brCnt := 8 }).brInit = true ∧
    abcTree.descend (unreadBits (withReader 0 { abcState with brCnt := 8 })) = some abcTree ∧
    (0x62 : Sym) ∈ abcTree.leafSyms ∧
    abcTree.descend (unreadBits (withReader 0 { abcState with brCnt := 7 })) =
      some (.node 0x63 2 (.leaf 0x63 1) (.leaf 0x62 1)) ∧
    (0x62 : Sym) ∈ (CodeTree.node 0x63 2 (.leaf 0x63 1) (.leaf 0x62 1)).leafSyms := by decide

theorem witness_WbitAppendsOneBit :
    sevenPending.mode = .run ∧ sevenPending.bwCnt.val = 7 ∧
    ({ sevenPending with bwCnt := 6 } : State).bwCnt.val < 7 ∧ State.reset.bwCnt.val < 7 ∧
    writerInv sevenPending := ⟨rfl, rfl, by decide, by decide, writerInv_seven⟩

theorem witness_WflushEmitsThePendingByte :
    sevenPending.mode = .run ∧ 0 < sevenPending.bwCnt.val ∧ writerInv sevenPending ∧
    0 < ({ State.reset with bwBuf := 0x80, bwCnt := 1 } : State).bwCnt.val ∧
    writerInv { State.reset with bwBuf := 0x80, bwCnt := 1 } ∧
    State.reset.mode = .run ∧ State.reset.bwCnt.val = 0 ∧ writerInv State.reset :=
  ⟨rfl, by decide, writerInv_seven, by decide, writerInv_one _ rfl rfl, rfl, rfl, writerInv_reset⟩

theorem witness_RinitConstructsTheReader :
    State.reset.mode = .run ∧ State.reset.bin = [] ∧
    ({ State.reset with bin := [0xAF, 0x80] } : State).bin = 0xAF :: [0x80] := by decide

theorem witness_RbitReturnsTheNextBit :
    State.reset.mode = .run ∧ State.reset.brInit = false ∧
    (withReader 0xAF State.reset).brInit = true ∧ (withReader 0xAF State.reset).brCnt.val < 8 ∧
    (withReader 0xAF { State.reset with brCnt := 7 }).brCnt.val < 8 ∧
    (withReader 0xAF { State.reset with brCnt := 8, bin := [0x80] }).brCnt.val = 8 ∧
    (withReader 0xAF { State.reset with brCnt := 8, bin := [0x80] }).bin = 0x80 :: [] ∧
    (withReader 0xAF { State.reset with brCnt := 8 }).bin = [] := by decide

theorem witness_ErrorsArePreciseAtEveryStep :
    ({ State.reset with cmd := some 0x3041000000000000 } : State).mode = .run ∧
    ({ State.reset with cmd := some 0x3041000000000000 } : State).cmd = some 0x3041000000000000 ∧
    ∃ t, step { State.reset with cmd := some 0x3041000000000000 } = .next t ∧ t.mode = .faulted :=
  ⟨rfl, rfl, _, rfl, rfl⟩

/-- A state and a word for each cause, one with none, and FAULTED mode. -/
theorem witness_TheFirstCauseInOrderIsRecorded :
    faultedState.mode = .faulted ∧ State.reset.mode = .run ∧
    causeOf 0xFF00000000000000 State.reset = some .illegalCmd ∧
    causeOf 0x3041000000000000 State.reset = some .treeUnbuilt ∧
    causeOf 0x3100000000000000 { State.reset with ts := .empty } = some .treeEmpty ∧
    causeOf 0x3064000000000000 abcState = some .symAbsent ∧
    causeOf 0x1207000000000000 { State.reset with ft := [(7, 0xFFFFFFFF)] } = some .freqOverflow ∧
    causeOf 0x3100000000000000 abcState = some .readerUninit ∧
    causeOf 0x3061000000000000 abcState = none := by decide

theorem witness_OnlyListedCommandsWriteEachElement :
    exec .nop abcState = .next abcState ∧ Element.table ∉ mayWrite .nop := ⟨rfl, by decide⟩

theorem witness_StreamsMoveOneWay :
    ({ abcState with cmd := some 0 } : State).cmd = some 0 ∧
    ∃ t, step { abcState with cmd := some 0 } = .next t := ⟨rfl, _, rfl⟩

theorem witness_IdempotentCommands :
    (∃ t, exec .nop abcState = .next t) ∧ (∃ t, exec .fclr abcState = .next t) ∧
    (∃ t, exec (.fwr 0x61 0) abcState = .next t) ∧ (∃ t, exec (.frd 0x61) abcState = .next t) ∧
    (∃ t, exec .build abcState = .next t) ∧ (∃ t, exec .wflush sevenPending = .next t) :=
  ⟨⟨_, rfl⟩, ⟨_, rfl⟩, ⟨_, rfl⟩, ⟨_, rfl⟩, ⟨_, rfl⟩, ⟨_, rfl⟩⟩

theorem witness_EosIsStickyAndUnread :
    ({ State.reset with eos := true } : State).eos = true ∧
    step { State.reset with eos := true } = .next { State.reset with eos := true } ∧
    ¬ ResetIsNext { State.reset with eos := true } ∧
    exec .nop State.reset = .next State.reset := by
  refine ⟨rfl, rfl, ?_, rfl⟩
  rintro ⟨-, h⟩
  exact absurd h (by decide)

theorem witness_DrawsMatterOnlyWithEos :
    (∃ t, execRinitWith (fun _ => 0) { State.reset with bin := [0xAF] } = .next t ∧ t.eos = false) ∧
    (∃ t, execRbitWith (fun _ => 0) (withReader 0xAF State.reset) = .next t ∧ t.eos = false) ∧
    (∃ t, execDecWith (fun _ => 0) (withReader 0xA0 abcState) = .next t ∧ t.eos = false) :=
  ⟨⟨_, rfl, rfl⟩, ⟨_, rfl, rfl⟩, ⟨_, rfl, by decide⟩⟩

theorem witness_StepKeepsTheInvariant :
    Inv State.reset ∧ Inv abcState ∧ step abcState = .next abcState := ⟨inv_reset, inv_abc, rfl⟩

/-- V-SRC-2. -/
theorem witness_HigherIsAStrictOrder :
    higher (.leaf 0 1) (.leaf 0 2) = true ∧ higher (.leaf 1 1) (.leaf 0 1) = true ∧
    higher (.leaf 2 1) (.leaf 1 1) = true ∧
    (CodeTree.leaf 1 1).sym ≠ (CodeTree.leaf 0 1).sym ∧
    (CodeTree.leaf 1 1).sym = (CodeTree.node 1 1 (.leaf 1 0) (.leaf 0 1)).sym ∧
    (CodeTree.leaf 1 1).count = (CodeTree.node 1 1 (.leaf 1 0) (.leaf 0 1)).count := by decide

theorem witness_HighestIsTheUniqueFirst :
    [CodeTree.leaf 0 1, .leaf 1 1] ≠ [] ∧ ([CodeTree.leaf 0 1, .leaf 1 1].map CodeTree.sym).Nodup ∧
    [CodeTree.leaf 0 1, .leaf 1 1].Perm [.leaf 1 1, .leaf 0 1] := by decide

theorem witness_BuildIgnoresInsertionOrder :
    ([CodeTree.leaf 0 1, .leaf 1 1].map CodeTree.sym).Nodup ∧
    [CodeTree.leaf 0 1, .leaf 1 1].Perm [.leaf 1 1, .leaf 0 1] ∧
    ([] : List CodeTree).Perm [] := by decide

theorem witness_BuildMergesTheTwoHighest :
    extractHighest [CodeTree.leaf 0 1, .leaf 1 1] = some (.leaf 1 1, [.leaf 0 1]) ∧
    extractHighest [CodeTree.leaf 0 1] = some (.leaf 0 1, []) ∧
    buildTree abcTable = some abcTree := ⟨by decide, by decide, build_abc⟩

theorem witness_BuiltTreesAreWellFormed :
    buildTree abcTable = some abcTree ∧ buildTree [(0x41, 3)] = some (.leaf 0x41 3) ∧
    buildTree [] = none ∧ (∃ t, exec .nop abcState = .next t ∧ t.ts = .built abcTree) :=
  ⟨build_abc, build_single, build_empty, _, rfl, rfl⟩

theorem witness_SingleSymbolAlphabet :
    (withReader 0xFF singleState).mode = .run ∧
    (withReader 0xFF singleState).ft.read (ftIndex 0x41) ≠ 0 ∧
    (∀ other : Sym, other ≠ 0x41 → (withReader 0xFF singleState).ft.read (ftIndex other) = 0) ∧
    (withReader 0xFF singleState).brInit = true ∧
    unreadBits (withReader 0xFF singleState) = true :: List.replicate 7 true := by decide

theorem witness_CodesArePrefixFree :
    abcTree.wf = true ∧ abcTree.code 0x62 = some [false, true] ∧ abcTree.code 0x63 = some [false, false] ∧
    (0x62 : Sym) ≠ 0x63 ∧ abcTree.codes [0x61, 0x62] = some [true, false, true] := by decide

theorem witness_SizeLawsOfBuiltTrees :
    buildTree abcTable = some abcTree ∧ abcTree.code 0x62 = some [false, true] ∧
    buildTree [(0x41, 3)] = some (.leaf 0x41 3) := ⟨build_abc, by decide, build_single⟩

theorem witness_CodesExistExactlyForLeaves :
    abcTree.code 0x62 = some [false, true] ∧ buildTree abcTable = some abcTree := ⟨by decide, build_abc⟩

theorem witness_BuildDependsOnTheTableOnly :
    abcState.mode = .run ∧ ({ State.reset with ft := abcTable } : State).mode = .run ∧
    (∀ sym : Sym, abcState.ft.read (ftIndex sym) =
      ({ State.reset with ft := abcTable } : State).ft.read (ftIndex sym)) ∧
    (∃ t, exec .build abcState = .next t) ∧
    (∃ t, exec .build { State.reset with ft := abcTable } = .next t) :=
  ⟨rfl, rfl, fun _ => rfl, ⟨_, rfl⟩, _, rfl⟩

theorem witness_EncodedLengthIsTheNodeCountSum :
    buildTree abcTable = some abcTree ∧ 2 ≤ abcTree.leafSyms.length ∧
    buildTree [(0x41, 3)] = some (.leaf 0x41 3) ∧ (CodeTree.leaf 0x41 3).leafSyms.length = 1 :=
  ⟨build_abc, by decide, build_single, rfl⟩

/-- V-SRC-1: nine bits, so seven padding bits. -/
def nineBits : List Bit := [true, false, true, false, true, true, true, true, true]

theorem witness_BitRoundTrip :
    State.reset.mode = .run ∧ State.reset.bwCnt = 0 ∧ writerInv State.reset ∧ nineBits ≠ [] ∧
    ∃ w, execAll (nineBits.map .wbit ++ [.wflush]) State.reset = .next w ∧
      w.bout = State.reset.bout ++ [0xAF, 0x80] ∧
      ({ State.reset with bin := [0xAF, 0x80] } : State).mode = .run ∧
      ({ State.reset with bin := [0xAF, 0x80] } : State).brInit = false ∧
      ({ State.reset with bin := [0xAF, 0x80] } : State).eos = false :=
  ⟨rfl, rfl, writerInv_reset, by decide, _, rfl, by decide, rfl, rfl, rfl⟩

theorem witness_PaddingReadsWithoutAFill :
    ({ State.reset with bin := [0xAF, 0x80] } : State).mode = .run ∧
    ({ State.reset with bin := [0xAF, 0x80] } : State).brInit = false ∧
    ({ State.reset with bin := [0xAF, 0x80] } : State).eos = false ∧
    ({ State.reset with bin := [0xAF, 0x80] } : State).bin = [0xAF, 0x80] ∧ nineBits ≠ [] ∧
    streamBits [0xAF, 0x80] = nineBits ++ List.replicate ((8 - nineBits.length % 8) % 8) false ∧
    7 ≤ (8 - nineBits.length % 8) % 8 := by decide

theorem witness_RoundTrip :
    [(0x61 : Sym), 0x62, 0x61] ≠ [] ∧
    (∀ sym, occurrences [(0x61 : Sym), 0x62, 0x61] sym ≤ 2 ^ 32 - 1) ∧
    State.reset.mode = .run ∧ State.reset.bwCnt = 0 ∧ writerInv State.reset ∧
    (∀ packed, ({ State.reset with bin := packed } : State).mode = .run) := by
  refine ⟨by decide, fun sym => ?_, rfl, rfl, writerInv_reset, fun _ => rfl⟩
  exact (List.count_le_length).trans (by decide)

theorem witness_PseudoCommandsExpand :
    (∀ c ∈ [Char.ofNat 0, Char.ofNat 127], c.toNat < 128) ∧
    (∀ p ∈ [((0 : Nat), (0 : Nat)), (255, 0xFFFFFFFF)], p.1 ≤ 255 ∧ p.2 ≤ 0xFFFFFFFF) :=
  ⟨fun c hc => by
      rcases List.mem_cons.1 hc with rfl | hc
      · decide
      · rw [List.mem_singleton.1 hc]; decide,
    by decide⟩

theorem witness_AssembledWordsAreLegal :
    assembleWords (.fwr 255 0xFFFFFFFF) = some [0x11FF0000FFFFFFFF] ∧
    assembleLine "FWR 255, 0xFFFFFFFF".toList = some [0x11FF0000FFFFFFFF] ∧
    assembleWords (.fwr 256 0) = none ∧ assembleWords (.wbit 1) = some [0x4000000100000000] ∧
    assembleWords (.wbit 2) = none := by decide

end Sys2Proof.Tests
end

section
/-! SUPPORT. What the construction of a tree keeps (10_state.md R24): the counts of its leaves, exact
through every merge, and the leaves themselves, which are the counted symbols of the table
(42_build.md R163). -/

namespace Sys2Proof.Machine

/-! ### The counted symbols of a table (42_build.md R163) -/

/-- The symbols with a nonzero entry, in rising order. -/
def countedSyms (f : Memory) : List Sym := symbols.filter fun sym => f.read (ftIndex sym) != 0

theorem mem_countedSyms {f : Memory} {sym : Sym} :
    sym ∈ countedSyms f ↔ f.read (ftIndex sym) ≠ 0 := by
  simp [countedSyms, mem_symbols]

theorem countedSyms_nodup (f : Memory) : (countedSyms f).Nodup := symbols_nodup.filter _

theorem countedSyms_length_le (f : Memory) : (countedSyms f).length ≤ 256 :=
  symbols_length ▸ List.length_filter_le _ symbols

theorem leavesOf_eq_map (f : Memory) :
    leavesOf f = (countedSyms f).map fun sym => .leaf sym (zextCount40 (f.read (ftIndex sym))) := by
  unfold leavesOf countedSyms
  induction symbols with
  | nil => rfl
  | cons sym syms ih => by_cases h : f.read (ftIndex sym) = 0#32 <;> simpa [h] using ih

theorem leavesOf_syms (f : Memory) : (leavesOf f).map CodeTree.sym = countedSyms f := by
  simp [leavesOf_eq_map, Function.comp_def, CodeTree.sym]

theorem mem_leavesOf {f : Memory} {x : CodeTree} :
    x ∈ leavesOf f ↔ ∃ sym, f.read (ftIndex sym) ≠ 0 ∧
      x = .leaf sym (zextCount40 (f.read (ftIndex sym))) := by
  simp [leavesOf_eq_map, mem_countedSyms, eq_comm]

theorem leavesOf_length (f : Memory) : (leavesOf f).length = (countedSyms f).length := by
  simp [leavesOf_eq_map]

theorem leavesOf_eq_nil {f : Memory} :
    leavesOf f = [] ↔ ∀ sym, f.read (ftIndex sym) = 0 := by
  simp [leavesOf_eq_map, List.eq_nil_iff_forall_not_mem, mem_countedSyms]

/-- TOTAL is the sum of the counts of the leaves, because an entry of 0 adds nothing. -/
theorem leavesOf_counts_sum (f : Memory) : ((leavesOf f).map CodeTree.count).sum = totalOf f := by
  unfold leavesOf totalOf
  induction symbols with
  | nil => rfl
  | cons sym syms ih =>
    by_cases h : f.read (ftIndex sym) = 0#32 <;> simpa [h, CodeTree.count, zextCount40] using ih

/-- NSYM does not wrap: there are at most 256 leaves, and NSYM has 9 bits. -/
theorem nsymOf_toNat (f : Memory) : (nsymOf f).toNat = (leavesOf f).length := by
  have hle := countedSyms_length_le f
  have hnsym : nsymOf f = BitVec.ofNat 9 (countedSyms f).length := by
    rw [nsymOf, List.countP_eq_length_filter, countedSyms]
  rw [leavesOf_length, hnsym, BitVec.toNat_ofNat]
  exact Nat.mod_eq_of_lt (by omega)

theorem buildFrom_eq_none {q : List CodeTree} : buildFrom q = none ↔ q = [] := by
  refine ⟨fun h => ?_, fun h => h ▸ buildFrom_nil⟩
  by_contra hq
  simpa [h] using buildFrom_isSome hq

theorem buildTree_eq_none {f : Memory} :
    buildTree f = none ↔ ∀ sym, f.read (ftIndex sym) = 0 :=
  buildFrom_eq_none.trans leavesOf_eq_nil

/-! ### Exact sums (10_state.md R24 (c), (d)) -/

/-- The sum of the counts of the leaves, exact. -/
def CodeTree.weight (t : CodeTree) : Nat := (t.leaves.map fun x => x.count.toNat).sum

@[simp] theorem weight_leaf (sym : Sym) (count : NodeCount) :
    (CodeTree.leaf sym count).weight = count.toNat := by
  simp [CodeTree.weight, CodeTree.leaves, CodeTree.count]

@[simp] theorem weight_node (sym : Sym) (count : NodeCount) (left right : CodeTree) :
    (CodeTree.node sym count left right).weight = left.weight + right.weight := by
  simp [CodeTree.weight, CodeTree.leaves]

theorem sumsOk_leaf {sym : Sym} {count : NodeCount} :
    (CodeTree.leaf sym count).sumsOk = true ↔ count ≠ 0 ∧ count.toNat < 2 ^ 32 := by
  simp [CodeTree.sumsOk]

theorem sumsOk_node {sym : Sym} {count : NodeCount} {left right : CodeTree} :
    (CodeTree.node sym count left right).sumsOk = true ↔
      count.toNat = left.count.toNat + right.count.toNat ∧ sym = left.sym ∧
        left.sumsOk = true ∧ right.sumsOk = true := by
  simp [CodeTree.sumsOk, and_assoc]

/-- In a tree with exact sums the root's count is the exact sum over the leaves. -/
theorem count_eq_weight {t : CodeTree} (h : t.sumsOk = true) : t.count.toNat = t.weight := by
  induction t with
  | leaf sym count => simp [CodeTree.count]
  | node sym count left right ihl ihr =>
    obtain ⟨hsum, -, hl, hr⟩ := sumsOk_node.1 h
    rw [weight_node, ← ihl hl, ← ihr hr]
    exact hsum

/-- The same in the 40-bit arithmetic of TOTAL. -/
theorem count_eq_leaves_sum {t : CodeTree} (h : t.sumsOk = true) :
    t.count = (t.leaves.map CodeTree.count).sum := by
  induction t with
  | leaf sym count => simp [CodeTree.leaves]
  | node sym count left right ihl ihr =>
    obtain ⟨hsum, -, hl, hr⟩ := sumsOk_node.1 h
    rw [CodeTree.leaves, List.map_append, List.sum_append, ← ihl hl, ← ihr hr]
    refine BitVec.eq_of_toNat_eq ?_
    rw [BitVec.toNat_add, ← hsum, Nat.mod_eq_of_lt count.isLt, CodeTree.count]

/-- A merge whose sum fits in 40 bits has exact sums. -/
theorem sumsOk_mergeNodes {a b : CodeTree} (ha : a.sumsOk = true) (hb : b.sumsOk = true)
    (hfit : a.weight + b.weight < 2 ^ 40) : (mergeNodes a b).sumsOk = true := by
  refine sumsOk_node.2 ⟨?_, rfl, ha, hb⟩
  rw [BitVec.toNat_add, count_eq_weight ha, count_eq_weight hb, Nat.mod_eq_of_lt hfit]

theorem zextCount40_toNat (c : Count) : (zextCount40 c).toNat = c.toNat :=
  BitVec.toNat_setWidth_of_le (by decide)

/-- The leaves of a table have exact sums: an entry is nonzero and has 32 bits. -/
theorem sumsOk_of_mem_leavesOf {f : Memory} {x : CodeTree} (hx : x ∈ leavesOf f) :
    x.sumsOk = true := by
  obtain ⟨sym, hne, rfl⟩ := mem_leavesOf.1 hx
  refine sumsOk_leaf.2 ⟨fun h0 => hne (BitVec.eq_of_toNat_eq ?_), ?_⟩
  · rw [← zextCount40_toNat, h0]; rfl
  · rw [zextCount40_toNat]; exact (f.read (ftIndex sym)).isLt

/-- 256 entries of 32 bits sum to less than 2^40: no count of the construction wraps. -/
theorem leafCounts_sum_lt (f : Memory) :
    ((leavesOf f).map fun x => x.count.toNat).sum < 2 ^ 40 := by
  have hbound : ∀ n ∈ (leavesOf f).map fun x => x.count.toNat, n ≤ 2 ^ 32 - 1 := by
    intro n hn
    obtain ⟨x, hx, rfl⟩ := List.mem_map.1 hn
    obtain ⟨sym, -, rfl⟩ := mem_leavesOf.1 hx
    have := (f.read (ftIndex sym)).isLt
    simp only [CodeTree.count, zextCount40_toNat]
    omega
  have hsum := List.sum_le_card_nsmul _ _ hbound
  have hlen := countedSyms_length_le f
  rw [List.length_map, leavesOf_length, smul_eq_mul] at hsum
  omega

/-! ### The construction keeps the leaves and the exact sums (42_build.md R165) -/

/-- What every round of the construction over a table keeps: exact sums in each node of the
collection, and the table's leaves below them. -/
structure BuildInv (f : Memory) (q : List CodeTree) : Prop where
  sums   : ∀ x ∈ q, x.sumsOk = true
  leaves : (q.flatMap CodeTree.leaves).Perm (leavesOf f)

theorem buildInv_leavesOf (f : Memory) : BuildInv f (leavesOf f) where
  sums _ := sumsOk_of_mem_leavesOf
  leaves := by
    rw [leavesOf_eq_map, List.flatMap_map, List.map_eq_flatMap]
    rfl

theorem BuildInv.perm {f : Memory} {q q' : List CodeTree} (hp : q.Perm q') (h : BuildInv f q) :
    BuildInv f q' where
  sums x hx := h.sums x (hp.mem_iff.2 hx)
  leaves := (hp.flatMap_right _).symm.trans h.leaves

/-- A merge does not wrap: the leaves below its two nodes are leaves of the table. -/
theorem BuildInv.merge_fits {f : Memory} {a b : CodeTree} {q : List CodeTree}
    (h : BuildInv f (a :: b :: q)) : a.weight + b.weight < 2 ^ 40 := by
  have hlt := leafCounts_sum_lt f
  rw [← (h.leaves.map _).sum_eq] at hlt
  simp only [List.flatMap_cons, List.map_append, List.sum_append] at hlt
  simp only [CodeTree.weight]
  omega

theorem BuildInv.merge {f : Memory} {a b : CodeTree} {q : List CodeTree}
    (h : BuildInv f (a :: b :: q)) : BuildInv f (mergeNodes a b :: q) where
  sums := by
    obtain ⟨ha, hb, hq⟩ := by simpa using h.sums
    exact List.forall_mem_cons.2 ⟨sumsOk_mergeNodes ha hb h.merge_fits, hq⟩
  leaves := by simpa [mergeNodes, CodeTree.leaves] using h.leaves

/-- A built tree has exact sums, and its leaves are the table's. -/
theorem buildTree_inv {f : Memory} {t : CodeTree} (h : buildTree f = some t) :
    t.sumsOk = true ∧ t.leaves.Perm (leavesOf f) := by
  have hinv : BuildInv f [t] :=
    buildLoop_induction (fun _ _ => BuildInv.perm) (fun _ _ _ => BuildInv.merge) h
      (buildInv_leavesOf f)
  exact ⟨hinv.sums t (by simp), by simpa using hinv.leaves⟩

theorem buildTree_leafSyms_perm {f : Memory} {t : CodeTree} (h : buildTree f = some t) :
    t.leafSyms.Perm (countedSyms f) :=
  leavesOf_syms f ▸ (buildTree_inv h).2.map _

theorem leafSyms_length_pos (t : CodeTree) : 1 ≤ t.leafSyms.length := by
  induction t with
  | leaf sym count => simp
  | node sym count left right ihl ihr => simp; omega

theorem wf_iff {t : CodeTree} :
    t.wf = true ↔ t.sumsOk = true ∧ t.leafSyms.Nodup ∧ t.leafSyms.length ≤ 256 := by
  simp [CodeTree.wf, leafSyms_length_pos t, and_assoc]

/-- 10_state.md R24 holds of every built tree. -/
theorem buildTree_wf {f : Memory} {t : CodeTree} (h : buildTree f = some t) : t.wf = true := by
  have hp := buildTree_leafSyms_perm h
  exact wf_iff.2 ⟨(buildTree_inv h).1, hp.nodup_iff.2 (countedSyms_nodup f),
    hp.length_eq ▸ countedSyms_length_le f⟩

/-- 10_state.md R25: the root's count is TOTAL. -/
theorem buildTree_count {f : Memory} {t : CodeTree} (h : buildTree f = some t) :
    t.count = totalOf f := by
  obtain ⟨hsums, hleaves⟩ := buildTree_inv h
  rw [count_eq_leaves_sum hsums, (hleaves.map _).sum_eq, leavesOf_counts_sum]

/-- 10_state.md R25: NSYM is the number of leaves. -/
theorem buildTree_nsym {f : Memory} {t : CodeTree} (h : buildTree f = some t) :
    (nsymOf f).toNat = t.leafSyms.length := by
  rw [nsymOf_toNat, leavesOf_length, (buildTree_leafSyms_perm h).length_eq]

end Sys2Proof.Machine
end

section
/-! SUPPORT. Everything a command can write, said once (10_state.md R46): a command is discarded,
raises an error, or writes elements of its own list. -/

namespace Sys2Proof.Machine

/-! ### The frame of a command -/

/-- The two states differ at most in the fields the command may write; what is appended to a stream
stands behind what was there. -/
def WritesOnly (i : Instr) (s t : State) : Prop :=
  match i with
  | .nop => t = s
  | .fclr | .fwr _ _ | .finc _ => ∃ ft, t = { s with ft := ft }
  | .frd _ => ∃ res, t = { s with res := res }
  | .build => ∃ ts total nsym, t = { s with ts := ts, total := total, nsym := nsym }
  | .enc _ | .wbit _ | .wflush => ∃ buf cnt emitted,
      t = { s with bwBuf := buf, bwCnt := cnt, bout := s.bout ++ emitted }
  | .rinit => ∃ buf cnt bin eos draws brInit, t =
      { s with brBuf := buf, brCnt := cnt, bin := bin, eos := eos, draws := draws, brInit := brInit }
  | .rbit => ∃ buf cnt bin eos draws res, t =
      { s with brBuf := buf, brCnt := cnt, bin := bin, eos := eos, draws := draws, res := res }
  | .dec => ∃ buf cnt bin eos draws res emitted, t =
      { s with brBuf := buf, brCnt := cnt, bin := bin, eos := eos, draws := draws, res := res,
               sout := s.sout ++ emitted }

/-- A discarded command writes nothing. -/
theorem writesOnly_refl (i : Instr) (s : State) : WritesOnly i s s := by
  cases i with
  | nop => rfl
  | fclr | fwr | finc | frd => exact ⟨_, rfl⟩
  | build => exact ⟨_, _, _, rfl⟩
  | enc | wbit | wflush => exact ⟨s.bwBuf, s.bwCnt, [], by simp⟩
  | rinit | rbit => exact ⟨_, _, _, _, _, _, rfl⟩
  | dec => exact ⟨s.brBuf, s.brCnt, s.bin, s.eos, s.draws, s.res, [], by simp⟩

/-- Error entry by the command itself (60_exceptions.md R212). -/
def Raises (i : Instr) (s t : State) : Prop :=
  ∃ c, s.mode = .run ∧ t = raiseError c (encode i) s

/-- Behind the gate it is enough to look at the effect of a command in RUN mode. -/
theorem inRun_cases {i : Instr} {s t : State} {effect : State → State}
    (h : inRun s effect = .next t)
    (heffect : s.mode = .run → Raises i s (effect s) ∨ WritesOnly i s (effect s)) :
    Raises i s t ∨ WritesOnly i s t := by
  rcases inRun_next_iff.1 h with ⟨hrun, rfl⟩ | ⟨-, rfl⟩
  · exact heffect hrun
  · exact .inr (writesOnly_refl i t)

theorem execFinc_cases {sym : Sym} {s t : State} (h : execFinc sym s = .next t) :
    Raises (.finc sym) s t ∨ WritesOnly (.finc sym) s t := by
  refine inRun_cases h fun hrun => ?_
  split
  · exact .inl ⟨_, hrun, rfl⟩
  · exact .inr ⟨_, rfl⟩

theorem execEnc_cases {sym : Sym} {s t : State} (h : execEnc sym s = .next t) :
    Raises (.enc sym) s t ∨ WritesOnly (.enc sym) s t := by
  refine inRun_cases h fun hrun => ?_
  split
  · exact .inl ⟨_, hrun, rfl⟩
  · exact .inl ⟨_, hrun, rfl⟩
  · split
    · exact .inl ⟨_, hrun, rfl⟩
    · exact .inr (bwPutAll_frame _ s)

theorem execDecWith_cases {fill : Nat → Byte} {s t : State} (h : execDecWith fill s = .next t) :
    Raises .dec s t ∨ WritesOnly .dec s t := by
  refine inRun_cases h fun hrun => ?_
  split
  · exact .inl ⟨_, hrun, rfl⟩
  · exact .inl ⟨_, hrun, rfl⟩
  · next tree _ =>
    split
    · exact .inl ⟨_, hrun, rfl⟩
    · obtain ⟨buf, cnt, bin, eos, draws, hread⟩ := decodeSym_frame fill tree s
      simp only [hread]
      exact .inr ⟨_, _, _, _, _, _, _, rfl⟩

theorem execRinitWith_cases {fill : Nat → Byte} {s t : State} (h : execRinitWith fill s = .next t) :
    Raises .rinit s t ∨ WritesOnly .rinit s t := by
  refine inRun_cases h fun _ => ?_
  obtain ⟨buf, bin, eos, draws, hfill⟩ := brFill_frame fill s
  rw [hfill]
  exact .inr ⟨_, _, _, _, _, _, rfl⟩

theorem execRbitWith_cases {fill : Nat → Byte} {s t : State} (h : execRbitWith fill s = .next t) :
    Raises .rbit s t ∨ WritesOnly .rbit s t := by
  refine inRun_cases h fun hrun => ?_
  split
  · exact .inl ⟨_, hrun, rfl⟩
  · obtain ⟨buf, cnt, bin, eos, draws, hread⟩ := brGet_frame fill s
    simp only [hread]
    exact .inr ⟨_, _, _, _, _, _, rfl⟩

theorem execWflush_cases {s t : State} (h : execWflush s = .next t) :
    Raises .wflush s t ∨ WritesOnly .wflush s t := by
  obtain ⟨emitted, hflush⟩ := bwFlush_frame s
  exact inRun_cases h fun _ => .inr ⟨_, _, _, hflush⟩

/-- Everything a command can do: it raises an error, or it writes elements of its list. -/
theorem exec_cases {i : Instr} {s t : State} (h : exec i s = .next t) :
    Raises i s t ∨ WritesOnly i s t := by
  cases i with
  | nop => exact inRun_cases (effect := id) h fun _ => .inr rfl
  | fclr => unfold exec execFclr at h; exact inRun_cases h fun _ => .inr ⟨_, rfl⟩
  | fwr sym imm => unfold exec execFwr at h; exact inRun_cases h fun _ => .inr ⟨_, rfl⟩
  | finc sym => exact execFinc_cases h
  | frd sym => unfold exec execFrd at h; exact inRun_cases h fun _ => .inr ⟨_, rfl⟩
  | build => unfold exec execBuild at h; exact inRun_cases h fun _ => .inr ⟨_, _, _, rfl⟩
  | enc sym => exact execEnc_cases h
  | dec => exact execDecWith_cases h
  | wbit b => exact inRun_cases h fun _ => .inr (bwPut_frame b s)
  | wflush => exact execWflush_cases h
  | rinit => exact execRinitWith_cases h
  | rbit => exact execRbitWith_cases h

/-! ### What a command leaves unchanged (10_state.md R46) -/

/-- MODE, ERRC and ERRCMD, which only error entry writes (10_state.md R46). -/
def SameRecord (s t : State) : Prop := t.mode = s.mode ∧ t.errc = s.errc ∧ t.errcmd = s.errcmd

/-- The port, the position and the host's side, which no command touches. -/
def SameOutside (s t : State) : Prop := t.cmd = s.cmd ∧ t.pos = s.pos ∧ t.host = s.host

theorem sameElement_refl (e : Element) (s : State) : sameElement e s s := by
  cases e <;> simp [sameElement]

theorem sameElement_raiseError (e : Element) (c : Cause) (w : Word) (s : State) :
    sameElement e s (raiseError c w s) := by
  cases e <;> simp [sameElement]

theorem sameOutside_raiseError (c : Cause) (w : Word) (s : State) :
    SameOutside s (raiseError c w s) := ⟨rfl, rfl, rfl⟩

/-- A write to the elements of a command's list leaves every other part of the state. -/
theorem WritesOnly.frame {i : Instr} {s t : State} (h : WritesOnly i s t) :
    (∀ e, e ∉ mayWrite i → sameElement e s t) ∧ SameRecord s t ∧ SameOutside s t := by
  have same : SameRecord s s ∧ SameOutside s s := ⟨⟨rfl, rfl, rfl⟩, rfl, rfl, rfl⟩
  cases i with
  | nop =>
    obtain rfl := h
    exact ⟨fun e _ => sameElement_refl e t, same⟩
  | fclr | fwr | finc | frd =>
    obtain ⟨_, rfl⟩ := h
    exact ⟨fun e he => by cases e <;> simp [mayWrite, sameElement] at he ⊢, same⟩
  | build | enc | wbit | wflush =>
    obtain ⟨_, _, _, rfl⟩ := h
    exact ⟨fun e he => by cases e <;> simp [mayWrite, sameElement] at he ⊢, same⟩
  | rinit | rbit =>
    obtain ⟨_, _, _, _, _, _, rfl⟩ := h
    exact ⟨fun e he => by cases e <;> simp [mayWrite, sameElement] at he ⊢, same⟩
  | dec =>
    obtain ⟨_, _, _, _, _, _, _, rfl⟩ := h
    exact ⟨fun e he => by cases e <;> simp [mayWrite, sameElement] at he ⊢, same⟩

/-- No command changes an element outside its list (10_state.md R46). -/
theorem exec_sameElement {i : Instr} {s t : State} (h : exec i s = .next t) {e : Element}
    (he : e ∉ mayWrite i) : sameElement e s t := by
  rcases exec_cases h with ⟨c, -, rfl⟩ | hw
  · exact sameElement_raiseError e c _ s
  · obtain ⟨helements, -, -⟩ := hw.frame
    exact helements e he

/-- Only error entry writes MODE, ERRC and ERRCMD (60_exceptions.md R212). -/
theorem exec_record {i : Instr} {s t : State} (h : exec i s = .next t) :
    SameRecord s t ∨ Raises i s t :=
  (exec_cases h).symm.imp_left fun hw => let ⟨_, hrecord, _⟩ := hw.frame; hrecord

theorem exec_sameOutside {i : Instr} {s t : State} (h : exec i s = .next t) : SameOutside s t := by
  rcases exec_cases h with ⟨c, -, rfl⟩ | hw
  · exact sameOutside_raiseError c _ s
  · obtain ⟨-, -, houtside⟩ := hw.frame
    exact houtside

/-! ### A command always completes (70_reset_and_hazards.md R265) -/

theorem inRun_next (s : State) (effect : State → State) : ∃ t, inRun s effect = .next t := by
  cases h : s.mode with
  | run => exact ⟨_, inRun_run h effect⟩
  | faulted => exact ⟨_, inRun_faulted h effect⟩

theorem exec_next (i : Instr) (s : State) : ∃ t, exec i s = .next t := by
  obtain ⟨effect, heffect⟩ := exec_gated i
  exact heffect s ▸ inRun_next s effect

/-- An illegal word raises ILLEGAL_CMD or is discarded (44_system.md R201). -/
theorem execIllegal_cases {w : Word} {s t : State} (h : execIllegal w s = .next t) :
    (s.mode = .run ∧ t = raiseError .illegalCmd w s) ∨ (s.mode = .faulted ∧ t = s) :=
  inRun_next_iff.1 h

/-- A core step answers a next state, and outside the core it only takes the word (10_state.md
R37). -/
theorem coreStep_next (w : Word) (s : State) :
    ∃ t, coreStep w s = .next t ∧ SameOutside (acceptWord s) t := by
  unfold coreStep
  split
  · next i _ =>
    obtain ⟨t, ht⟩ := exec_next i (acceptWord s)
    exact ⟨t, ht, exec_sameOutside ht⟩
  · obtain ⟨t, ht⟩ := inRun_next (acceptWord s) (raiseError .illegalCmd w)
    refine ⟨t, ht, ?_⟩
    rcases execIllegal_cases ht with ⟨-, rfl⟩ | ⟨-, rfl⟩
    · exact sameOutside_raiseError _ w _
    · exact ⟨rfl, rfl, rfl⟩

theorem step_of_cmd {s : State} {w : Word} (h : s.cmd = some w) : step s = coreStep w s := by
  simp [step, h]

/-! ### Reset -/

theorem atReset_applyReset (s : State) : AtReset (applyReset s) where
  mode := rfl
  ft _ := rfl
  ts := rfl
  total := rfl
  nsym := rfl
  bwBuf := rfl
  bwCnt := rfl
  brBuf := rfl
  brCnt := rfl
  brInit := rfl
  eos := rfl
  res := rfl
  errc := rfl
  errcmd := rfl

/-! ### The tree state (10_state.md R24) -/

/-- BUILD alone puts a tree into TS, and that tree is well formed. -/
theorem execBuild_ts {s t : State} {tree : CodeTree} (h : execBuild s = .next t)
    (hts : t.ts = .built tree) : s.ts = .built tree ∨ tree.wf = true := by
  unfold execBuild at h
  rcases inRun_next_iff.1 h with ⟨-, rfl⟩ | ⟨-, rfl⟩
  · right
    cases hb : buildTree s.ft with
    | none => simp [hb, treeStateOf] at hts
    | some built =>
      obtain rfl : built = tree := by simpa [hb, treeStateOf] using hts
      exact buildTree_wf hb
  · exact .inl hts

/-- After any command a tree in TS is the one before, or well formed. -/
theorem exec_ts {i : Instr} {s t : State} {tree : CodeTree} (h : exec i s = .next t)
    (hts : t.ts = .built tree) : s.ts = .built tree ∨ tree.wf = true := by
  by_cases he : Element.tree ∈ mayWrite i
  · obtain rfl : i = .build := by cases i <;> simp [mayWrite] at he ⊢
    exact execBuild_ts h hts
  · obtain ⟨hsame, -, -⟩ := exec_sameElement h he
    exact .inl (hsame ▸ hts)

end Sys2Proof.Machine
end

section
/-! SUPPORT. The register read port (10_state.md R38 to R43): the registers are computed from the core's
tuple, and each field of a packed register is the element it shows. -/

namespace Sys2Proof.Machine

/-! ### What the registers depend on -/

theorem hostAct_sameCore {a : HostAction} (ha : a ≠ .assertReset) (s : State) :
    SameCore s (hostAct a s) := by
  cases a with
  | assertReset => exact absurd rfl ha
  | push | appendBin | drainBout | drainSout | readReg => constructor <;> rfl

/-- The registers are computed from the core's tuple (10_state.md R40, R41). -/
theorem readReg_congr {s t : State} (h : SameCore s t) (idx : RegIndex) :
    readReg idx t = readReg idx s := by
  simp only [readReg, statusWord, eosFlag, rinitFlag, singleFlag, treeField, faultFlag,
    bwStateWord, brStateWord, h.mode, h.ts, h.total, h.nsym, h.bwBuf, h.bwCnt, h.brBuf, h.brCnt,
    h.brInit, h.eos, h.res, h.errc, h.errcmd]

/-- An index above 0x0C has no entry (10_state.md R39). -/
theorem readReg_unmapped {idx : RegIndex} (h : 0x0D ≤ idx.toNat) (s : State) :
    readReg idx s = 0 := by
  obtain ⟨n, hn⟩ := Nat.exists_eq_add_of_le' h
  simp only [readReg, hn]

theorem readReg_id (s : State) : readReg 0x00 s = Config.idValue := rfl

theorem readReg_caps (s : State) : readReg 0x0C s = Config.capsValue := rfl

/-! ### The fields of the packed registers (10_state.md R41, R43) -/

/-- A field of a register, bit by bit. -/
theorem extractLsb'_eq_of_bits {n len start : Nat} {r : BitVec n} {v : BitVec len}
    (h : ∀ i < len, r.getLsbD (start + i) = v.getLsbD i) : r.extractLsb' start len = v :=
  BitVec.eq_of_getLsbD_eq fun i hi => by
    rw [BitVec.getLsbD_extractLsb', decide_eq_true hi, Bool.true_and, h i hi]

/-- A field of a register whose bits are all 0. -/
theorem extractLsb'_eq_zero_of_bits {n len start : Nat} {r : BitVec n}
    (h : ∀ i < len, r.getLsbD (start + i) = false) : r.extractLsb' start len = 0 :=
  extractLsb'_eq_of_bits fun i hi => (h i hi).trans BitVec.getLsbD_zero.symm

theorem statusWord_fault (s : State) : (statusWord s).getLsbD 0 = faultFlag s :=
  getLsbD_statusWord s 0

theorem statusWord_single (s : State) : (statusWord s).getLsbD 3 = singleFlag s :=
  getLsbD_statusWord s 3

theorem statusWord_rinit (s : State) : (statusWord s).getLsbD 4 = s.brInit :=
  getLsbD_statusWord s 4

theorem statusWord_eos (s : State) : (statusWord s).getLsbD 5 = s.eos :=
  getLsbD_statusWord s 5

theorem statusWord_tree (s : State) : (statusWord s).extractLsb' 1 2 = treeField s :=
  extractLsb'_eq_of_bits fun i hi => by
    rw [getLsbD_statusWord, if_neg (by omega), if_pos (by omega), Nat.add_sub_cancel_left]

theorem statusWord_reserved (s : State) : (statusWord s).extractLsb' 6 26 = 0 :=
  extractLsb'_eq_zero_of_bits fun i _ => by
    rw [getLsbD_statusWord, if_neg (by omega), if_neg (by omega), if_neg (by omega),
      if_neg (by omega), if_neg (by omega)]

theorem bwStateWord_buf (s : State) : (bwStateWord s).extractLsb' 0 8 = s.bwBuf :=
  extractLsb'_eq_of_bits fun i hi => by
    rw [getLsbD_bwStateWord, if_pos (by omega), Nat.zero_add]

theorem bwStateWord_cnt (s : State) :
    (bwStateWord s).extractLsb' 8 3 = BitVec.ofNat 3 s.bwCnt.val :=
  extractLsb'_eq_of_bits fun i hi => by
    rw [getLsbD_bwStateWord, if_neg (by omega), if_pos (by omega), Nat.add_sub_cancel_left]

theorem bwStateWord_reserved (s : State) : (bwStateWord s).extractLsb' 11 21 = 0 :=
  extractLsb'_eq_zero_of_bits fun i _ => by
    rw [getLsbD_bwStateWord, if_neg (by omega), if_neg (by omega)]

theorem brStateWord_buf (s : State) : (brStateWord s).extractLsb' 0 8 = s.brBuf :=
  extractLsb'_eq_of_bits fun i hi => by
    rw [getLsbD_brStateWord, if_pos (by omega), Nat.zero_add]

theorem brStateWord_cnt (s : State) :
    (brStateWord s).extractLsb' 8 4 = BitVec.ofNat 4 s.brCnt.val :=
  extractLsb'_eq_of_bits fun i hi => by
    rw [getLsbD_brStateWord, if_neg (by omega), if_pos (by omega), Nat.add_sub_cancel_left]

theorem brStateWord_reserved (s : State) : (brStateWord s).extractLsb' 12 20 = 0 :=
  extractLsb'_eq_zero_of_bits fun i _ => by
    rw [getLsbD_brStateWord, if_neg (by omega), if_neg (by omega)]

/-- BW_CNT fits its 3 bits (10_state.md R27). -/
theorem bwStateWord_cnt_toNat (s : State) :
    ((bwStateWord s).extractLsb' 8 3).toNat = s.bwCnt.val := by
  rw [bwStateWord_cnt, BitVec.toNat_ofNat, Nat.mod_eq_of_lt s.bwCnt.isLt]

/-- BR_CNT is at most 8 and fits its 4 bits (10_state.md R28). -/
theorem brStateWord_cnt_toNat (s : State) :
    ((brStateWord s).extractLsb' 8 4).toNat = s.brCnt.val := by
  have hlt := s.brCnt.isLt
  rw [brStateWord_cnt, BitVec.toNat_ofNat, Nat.mod_eq_of_lt (by omega)]

/-- The bits of ERRC's register above the 4-bit code (10_state.md R40). -/
theorem errcWord_reserved (s : State) : (s.errc.setWidth 32).extractLsb' 4 28 = 0 :=
  extractLsb'_eq_zero_of_bits fun i _ => by
    rw [BitVec.getLsbD_setWidth, BitVec.getLsbD_of_ge _ _ (by omega), Bool.and_false]

theorem faultFlag_iff (s : State) : faultFlag s = true ↔ s.mode = .faulted := by
  simp [faultFlag]

theorem singleFlag_iff (s : State) :
    singleFlag s = true ↔ ∃ sym count, s.ts = .built (.leaf sym count) := by
  unfold singleFlag
  split <;> simp_all

theorem treeField_ne_three (s : State) : treeField s ≠ 0b11 := by
  unfold treeField
  split <;> decide

end Sys2Proof.Machine
end

section
/-! The statements about the state (10_state.md), settled from the lemmas above. -/

open Sys2Proof Sys2Proof.Machine

/-- Settles O49: every merge of the construction keeps the exact sums and the leaves of the table, and
BUILD alone puts a tree into TS. -/
theorem builtTreesAreWellFormed : Obligations.BuiltTreesAreWellFormed :=
  ⟨fun _ _ h => ⟨buildTree_wf h, (buildTree_inv h).2, buildTree_count h, buildTree_nsym h⟩,
    fun _ => buildTree_eq_none, fun _ _ _ _ => exec_ts⟩

/-- Settles O38: a command raises an error or writes elements of its list. -/
theorem onlyListedCommandsWriteEachElement : Obligations.OnlyListedCommandsWriteEachElement :=
  ⟨fun s => ⟨atReset_applyReset s, rfl, rfl, rfl⟩,
    fun _ _ _ h => ⟨fun _ => exec_sameElement h, exec_record h, exec_sameOutside h⟩,
    fun _ => ⟨rfl, rfl, rfl⟩⟩

/-- Settles O12: the core accepts the word, and no command touches the position, the port or the host's
side. -/
theorem everyWordAdvancesThePosition : Obligations.EveryWordAdvancesThePosition := by
  intro s w hw
  obtain ⟨t, ht, hcmd, hpos, hhost⟩ := coreStep_next w s
  exact ⟨t, step_of_cmd hw ▸ ht, hpos, hcmd, hhost⟩

/-- Settles O15: the registers are computed from the core's tuple, which the host changes by reset
only. -/
theorem registerMapValues : Obligations.RegisterMapValues := by
  intro s
  refine ⟨fun _ => rfl, fun a ha idx => readReg_congr (hostAct_sameCore ha s) idx,
    rfl, rfl, rfl, rfl, rfl, rfl, rfl, rfl, rfl, rfl, rfl, rfl, rfl, ?_⟩
  rw [readReg_id, readReg_caps]
  decide

/-- Settles O16: an index above 0x0C has no entry, and the packed registers hold nothing above their
fields. -/
theorem unmappedIndicesAndReservedBitsReadZero :
    Obligations.UnmappedIndicesAndReservedBitsReadZero :=
  fun s => ⟨fun _ h => readReg_unmapped h s, statusWord_reserved s, errcWord_reserved s,
    bwStateWord_reserved s, brStateWord_reserved s⟩

/-- Settles O17: each field of STATUS is its flag. -/
theorem statusFields : Obligations.StatusFields := by
  intro s
  rw [statusWord_fault, statusWord_tree, statusWord_single]
  refine ⟨faultFlag_iff s, fun h => ?_, fun h => ?_, fun t h => ?_, treeField_ne_three s,
    singleFlag_iff s, statusWord_rinit s, statusWord_eos s, statusWord_reserved s⟩
  all_goals simp only [treeField, h]

/-- Settles O18: BW_CNT and BR_CNT fit their fields. -/
theorem writerAndReaderStateFields : Obligations.WriterAndReaderStateFields :=
  fun s => ⟨bwStateWord_buf s, bwStateWord_cnt_toNat s, bwStateWord_reserved s, brStateWord_buf s,
    brStateWord_cnt_toNat s, brStateWord_reserved s⟩
end

section
/-! SUPPORT. The opcode map by fields (30_encoding.md R93 to R96): its opcodes are distinct, so at most
one row accepts a word, and some row accepts exactly the well-formed words. -/

namespace Sys2Proof

/-! ### The rows of the map (30_encoding.md R94) -/

/-- The opcode of a row: the OPC field of its `match`. -/
def Row.opc (r : Row) : BitVec 8 := opcOf r.pattern

/-- The mask of an opcode from its "uses" column: OPC, RSV and every unused field (30_encoding.md
R93). -/
def Uses.mask (u : Uses) : Word :=
  0xFF#8 ++ (bif u.sym then 0 else 0xFF#8) ++ 0x7FFF#15 ++ BitVec.ofBool (!u.b) ++
    (bif u.imm then 0 else 0xFFFFFFFF#32)

theorem opcodeMap_opc_nodup : (opcodeMap.map Row.opc).Nodup := by decide

/-- A row's mask is that of its opcode's "uses" column, and its `match` is OPC with zeros elsewhere. -/
theorem opcodeMap_fields : ∀ r ∈ opcodeMap,
    (usesOf r.opc).map Uses.mask = some r.mask ∧ r.pattern = wordOf r.opc 0 false 0 := by decide

theorem usesOf_eq_none_iff (opc : BitVec 8) :
    usesOf opc = none ↔ ∀ r ∈ opcodeMap, r.opc ≠ opc := by
  revert opc
  decide

/-- The unassigned opcodes (30_encoding.md R96). -/
theorem usesOf_ofNat_eq_none_iff {n : Nat} (hn : n < 256) : usesOf (BitVec.ofNat 8 n) = none ↔
    (0x01 ≤ n ∧ n ≤ 0x0F) ∨ (0x14 ≤ n ∧ n ≤ 0x1F) ∨ (0x21 ≤ n ∧ n ≤ 0x2F) ∨ (0x32 ≤ n ∧ n ≤ 0x3F) ∨
      (0x42 ≤ n ∧ n ≤ 0x4F) ∨ 0x52 ≤ n := by
  unfold usesOf
  rw [BitVec.toNat_ofNat, Nat.mod_eq_of_lt hn]
  split
  case h_13 => simp only [imp_false, true_iff] at *; omega
  all_goals simp

theorem usesOf_unassigned_count :
    ((List.range 256).countP fun n => (usesOf (BitVec.ofNat 8 n)).isNone) = 244 := by decide +kernel

/-! ### Which words a row accepts (30_encoding.md R93, R95) -/

/-- The mask holds OPC, RSV and each field the opcode does not use. -/
theorem mask_fields (u : Uses) :
    opcOf u.mask = BitVec.allOnes 8 ∧ symOf u.mask = (bif u.sym then 0 else BitVec.allOnes 8) ∧
      rsvOf u.mask = BitVec.allOnes 15 ∧ bOf u.mask = !u.b ∧
      immOf u.mask = bif u.imm then 0 else BitVec.allOnes 32 := by
  rcases u with ⟨_ | _, _ | _, _ | _⟩ <;> decide

theorem and_unusedMask_eq_zero {n : Nat} (v : BitVec n) (used : Bool) :
    v &&& (bif used then 0 else BitVec.allOnes n) = 0 ↔ used = true ∨ v = 0 := by
  cases used <;> simp

/-- The masked bits of a word are an opcode alone exactly when its OPC is that opcode, and its RSV and
its unused fields are zero. -/
theorem and_mask_eq_iff (u : Uses) (w : Word) (opc : BitVec 8) :
    w &&& u.mask = wordOf opc 0 false 0 ↔
      opcOf w = opc ∧ rsvOf w = 0 ∧ (u.sym = true ∨ symOf w = 0) ∧ (u.b = true ∨ bOf w = false) ∧
        (u.imm = true ∨ immOf w = 0) := by
  obtain ⟨hopc, hsym, hrsv, hb, himm⟩ := mask_fields u
  rw [word_ext_iff]
  simp only [opcOf_and, symOf_and, rsvOf_and, bOf_and, immOf_and, opcOf_wordOf, symOf_wordOf,
    rsvOf_wordOf, bOf_wordOf, immOf_wordOf, hopc, hsym, hrsv, hb, himm, and_unusedMask_eq_zero,
    BitVec.and_allOnes, Bool.and_eq_false_iff, Bool.not_eq_false']
  tauto

/-- The legal words: `wordWF` field by field (30_encoding.md R93). -/
theorem wordWF_iff (w : Word) :
    wordWF w = true ↔ ∃ u, usesOf (opcOf w) = some u ∧ rsvOf w = 0 ∧
      (u.sym = true ∨ symOf w = 0) ∧ (u.b = true ∨ bOf w = false) ∧ (u.imm = true ∨ immOf w = 0) := by
  unfold wordWF
  cases usesOf (opcOf w) <;> simp [and_assoc]

/-- The illegal words as 30_encoding.md R96 lists them. -/
theorem wordWF_eq_false_iff (w : Word) :
    wordWF w = false ↔ usesOf (opcOf w) = none ∨
      ∃ u, usesOf (opcOf w) = some u ∧
        (rsvOf w ≠ 0 ∨ (u.sym = false ∧ symOf w ≠ 0) ∨ (u.b = false ∧ bOf w = true) ∨
          (u.imm = false ∧ immOf w ≠ 0)) := by
  unfold wordWF
  cases usesOf (opcOf w) with
  | none => simp
  | some u =>
    simp only [Bool.and_eq_false_iff, Bool.or_eq_false_iff, beq_eq_false_iff_ne]
    simp [or_assoc]

/-- A row accepts the well-formed words of its own opcode. -/
theorem accepts_iff_of_mem {r : Row} (hr : r ∈ opcodeMap) (w : Word) :
    r.accepts w = true ↔ opcOf w = r.opc ∧ wordWF w = true := by
  obtain ⟨hmask, hpattern⟩ := opcodeMap_fields r hr
  obtain ⟨u, hu, hmask⟩ := Option.map_eq_some_iff.1 hmask
  rw [Row.accepts, beq_iff_eq, ← hmask, hpattern, and_mask_eq_iff, wordWF_iff]
  exact and_congr_right fun hopc => by simp [hopc, hu]

theorem opc_eq_of_accepts {r : Row} (hr : r ∈ opcodeMap) {w : Word} (hw : r.accepts w = true) :
    r.opc = opcOf w := ((accepts_iff_of_mem hr w).1 hw).1.symm

/-- At most one row accepts a word (30_encoding.md R95). -/
theorem row_eq_of_accepts {r r' : Row} (hr : r ∈ opcodeMap) (hr' : r' ∈ opcodeMap) {w : Word}
    (hw : r.accepts w = true) (hw' : r'.accepts w = true) : r = r' :=
  List.inj_on_of_nodup_map opcodeMap_opc_nodup hr hr'
    ((opc_eq_of_accepts hr hw).trans (opc_eq_of_accepts hr' hw').symm)

/-- `decode` answers the command of a row that accepts the word (30_encoding.md R95). -/
theorem decode_eq_some_iff_row (w : Word) (i : Instr) :
    decode w = some i ↔
      ∃ r ∈ opcodeMap, r.accepts w = true ∧ i = r.command (symOf w) (bOf w) (immOf w) := by
  have spec {r : Row} (h : opcodeMap.find? (Row.accepts · w) = some r) :
      r ∈ opcodeMap ∧ r.accepts w = true :=
    ⟨List.mem_of_find?_eq_some h, List.find?_some (p := (Row.accepts · w)) h⟩
  rw [decode_eq_some_iff]
  refine ⟨fun ⟨r, hfind, hi⟩ => ⟨r, (spec hfind).1, (spec hfind).2, hi.symm⟩, ?_⟩
  rintro ⟨r, hr, hw, rfl⟩
  obtain ⟨r', hfind⟩ := Option.isSome_iff_exists.1
    (List.find?_isSome (p := (Row.accepts · w)).2 ⟨r, hr, hw⟩)
  obtain ⟨hr', hw'⟩ := spec hfind
  exact ⟨r, row_eq_of_accepts hr' hr hw' hw ▸ hfind, rfl⟩

theorem decode_eq_none_iff (w : Word) :
    decode w = none ↔ ∀ r ∈ opcodeMap, ¬ r.accepts w = true := by
  simp [decode]

/-- ILLEGAL is the answer to exactly the ill-formed words (30_encoding.md R96). -/
theorem decode_eq_none_iff_wordWF (w : Word) : decode w = none ↔ wordWF w = false := by
  rw [decode_eq_none_iff, ← Bool.not_eq_true]
  refine ⟨fun h hw => ?_, fun h r hr hr' => h ((accepts_iff_of_mem hr w).1 hr').2⟩
  obtain ⟨u, hu, -⟩ := (wordWF_iff w).1 hw
  have hassigned : ∃ r ∈ opcodeMap, r.opc = opcOf w := by
    simpa [hu] using usesOf_eq_none_iff (opcOf w)
  obtain ⟨r, hr, hopc⟩ := hassigned
  exact h r hr ((accepts_iff_of_mem hr w).2 ⟨hopc.symm, hw⟩)

namespace Machine

/-- A core step on an illegal word in RUN mode is its error entry (44_system.md R201). -/
theorem step_of_illegal {s : State} {w : Word} (hmode : s.mode = .run) (hcmd : s.cmd = some w)
    (hw : decode w = none) : step s = .next (raiseError .illegalCmd w (acceptWord s)) := by
  rw [step_of_cmd hcmd, coreStep, hw]
  exact inRun_run (s := acceptWord s) hmode _

end Machine
end Sys2Proof
end

section
/-! SUPPORT. The assembler (30_encoding.md R100, R101): adjacent zero fields are one zero field, and the
expansion of a list of operands that are all in range. -/

namespace Sys2Proof

theorem append_zero_append_zero {n : Nat} (x : BitVec n) (k l : Nat) :
    x ++ 0#k ++ 0#l = (x ++ 0#(k + l)).cast (Nat.add_assoc n k l).symm := by
  simp [BitVec.append_assoc]

/-- A word with B and RSV zero (30_encoding.md R100). -/
theorem wordOf_false (opc : BitVec 8) (sym : Sym) (imm : Count) :
    wordOf opc sym false imm = opc ++ sym ++ 0x0000#16 ++ imm :=
  congrArg (· ++ imm) (append_zero_append_zero (opc ++ sym) 15 1)

/-- A word with SYM alone (30_encoding.md R100). -/
theorem wordOf_sym (opc : BitVec 8) (sym : Sym) :
    wordOf opc sym false 0 = opc ++ sym ++ 0x000000000000#48 :=
  (wordOf_false opc sym 0).trans (append_zero_append_zero (opc ++ sym) 16 32)

namespace Machine

/-- When every operand of a list is in range, so is the list. -/
theorem allOrNone_eq_map {α β : Type} {f : α → Option β} {g : α → β} {l : List α}
    (h : ∀ x ∈ l, f x = some (g x)) : allOrNone f l = some (l.map g) := by
  induction l with
  | nil => rfl
  | cons x l ih =>
    obtain ⟨hx, hl⟩ := List.forall_mem_cons.1 h
    simp [allOrNone, hx, ih hl]

theorem allOrNone_map {α β γ : Type} (f : β → Option γ) (k : α → β) (l : List α) :
    allOrNone f (l.map k) = allOrNone (fun x => f (k x)) l := by
  induction l with
  | nil => rfl
  | cons x l ih => simp [allOrNone, ih]

theorem textSym_of_ascii {c : Char} (h : c.toNat < 128) :
    textSym c = some (BitVec.ofNat 8 c.toNat) := if_pos h

theorem pairCommand_of_in_range {p : Nat × Nat} (hsym : p.1 ≤ 255) (hcount : p.2 ≤ 0xFFFFFFFF) :
    pairCommand p = some (.fwr (BitVec.ofNat 8 p.1) (BitVec.ofNat 32 p.2)) := by
  simp [pairCommand, symOperand, symOperandOk, countOperand, countOperandOk, hsym, hcount]

theorem textBit_of_bit (b : Bit) : textBit (if b then '1' else '0') = some b := by
  cases b <;> rfl

end Machine
end Sys2Proof
end

section
/-! The statements about the encoding (30_encoding.md), settled from the lemmas above. -/

open Sys2Proof Sys2Proof.Machine

/-- Settles O7: the opcodes of the rows are distinct, and a row accepts words of its own opcode only. -/
theorem decodeFindsTheOneMatchingRow : Obligations.DecodeFindsTheOneMatchingRow := by
  refine ⟨fun w i => ?_, fun w => ?_, ?_, fun s w => step_of_illegal⟩
  · simp only [decode_eq_some_iff_row, Row.accepts, beq_iff_eq]
    rfl
  · simp only [decode_eq_none_iff, Row.accepts, beq_iff_eq, ne_eq]
  · refine (List.pairwise_map.1 opcodeMap_opc_nodup).imp_of_mem fun hr hr' hne w ⟨h, h'⟩ => hne ?_
    exact congrArg Row.opc (row_eq_of_accepts hr hr' (beq_iff_eq.2 h) (beq_iff_eq.2 h'))

/-- Settles O8: the rows together accept exactly the well-formed words. -/
theorem illegalWordsAreTheIllFormedOnes : Obligations.IllegalWordsAreTheIllFormedOnes :=
  ⟨fun w => (decode_eq_none_iff_wordWF w).trans (wordWF_eq_false_iff w),
    fun _ => usesOf_ofNat_eq_none_iff, usesOf_unassigned_count, by decide, by decide,
    fun _ _ hmode hcmd hw => ⟨_, step_of_illegal hmode hcmd hw, rfl, rfl, rfl⟩⟩

/-- Settles O3: B and RSV are zero in every form but WBIT's. -/
theorem assembledWordOfEachForm : Obligations.AssembledWordOfEachForm :=
  ⟨rfl, rfl, wordOf_false 0x11, wordOf_sym 0x12, wordOf_sym 0x13, rfl, wordOf_sym 0x30, rfl, rfl, rfl,
    rfl, rfl, rfl⟩

/-- Settles O60: every operand of the texts and pairs is in range, so each is one command. -/
theorem pseudoCommandsExpand : Obligations.PseudoCommandsExpand := by
  refine ⟨fun text htext => ?_, fun pairs hpairs => ?_, fun n => rfl, fun bits => ?_⟩
  · have hsyms := allOrNone_eq_map fun c hc => textSym_of_ascii (htext c hc)
    simp [assemble, hsyms]
  · have hwrites := allOrNone_eq_map fun p hp =>
      pairCommand_of_in_range (hpairs p hp).1 (hpairs p hp).2
    simp [assemble, hwrites]
  · have hbits := allOrNone_eq_map (l := bits) fun b _ => textBit_of_bit b
    simp [assemble, allOrNone_map, hbits]

end

section
/-! SUPPORT. The writer's commands (40_bitio.md R120, R123 to R125): `BW_put` and `BW_flush` case by
case, and the bytes that a sequence of WBIT and one WFLUSH emit (R128). -/

namespace Sys2Proof.Machine

/-! ### `BW_put` and WBIT -/

/-- The buffer of `BW_put(b)` before a full byte leaves it (40_bitio.md R120). -/
def bwPutBuf (b : Bit) (s : State) : Byte := s.bwBuf ||| (zextBit8 b <<< (7 - s.bwCnt.val))

theorem getLsbD_bwPutBuf (b : Bit) (s : State) (i : Nat) :
    (bwPutBuf b s).getLsbD i = (s.bwBuf.getLsbD i || (decide (i = 7 - s.bwCnt.val) && b)) :=
  getLsbD_orBit s.bwBuf b s.bwCnt.val i s.bwCnt.isLt

/-- The eighth bit emits the byte. -/
theorem bwPut_of_full {s : State} (b : Bit) (h : s.bwCnt.val = 7) :
    bwPut b s = { s with bwBuf := 0, bwCnt := 0, bout := s.bout ++ [bwPutBuf b s] } :=
  if_pos (Fin.ext h)

theorem bwPut_of_not_full {s : State} (b : Bit) (h : s.bwCnt.val < 7) :
    bwPut b s = { s with bwBuf := bwPutBuf b s, bwCnt := s.bwCnt + 1 } :=
  if_neg fun hc => h.ne (congrArg Fin.val hc)

theorem exec_wbit {s : State} (h : s.mode = .run) (b : Bit) :
    exec (.wbit b) s = .next (bwPut b s) := inRun_run h _

/-! ### `BW_flush` and WFLUSH -/

theorem bwFlush_of_pending {s : State} (h : 0 < s.bwCnt.val) :
    bwFlush s = { s with bwBuf := 0, bwCnt := 0, bout := s.bout ++ [s.bwBuf] } := if_pos h

theorem bwFlush_of_empty {s : State} (h : s.bwCnt.val = 0) :
    bwFlush s = { s with bwBuf := 0, bwCnt := 0 } := if_neg h.not_gt

/-- An empty writer's buffer is zero (10_state.md R27). -/
theorem bwBuf_of_empty {s : State} (h : s.bwCnt.val = 0) (hinv : writerInv s) : s.bwBuf = 0 :=
  BitVec.eq_of_getLsbD_eq fun i hi => by simp [hinv i (by omega)]

/-- With nothing pending a flush changes nothing (40_bitio.md R123). -/
theorem bwFlush_eq_self {s : State} (h : s.bwCnt.val = 0) (hinv : writerInv s) : bwFlush s = s := by
  have hcnt : s.bwCnt = 0 := Fin.ext h
  rw [bwFlush_of_empty h, ← bwBuf_of_empty h hinv, ← hcnt]

theorem exec_wflush {s : State} (h : s.mode = .run) : exec .wflush s = .next (bwFlush s) :=
  inRun_run h _

/-- The buffer is its pending bits, then zeros (10_state.md R27). -/
theorem byteBits_bwBuf {s : State} (h : writerInv s) :
    byteBits s.bwBuf = pendingBits s ++ List.replicate (8 - s.bwCnt.val) false := by
  have hzeros : (byteBits s.bwBuf).drop s.bwCnt.val = List.replicate (8 - s.bwCnt.val) false :=
    List.eq_replicate_iff.2 ⟨by simp, fun b hb => by
      obtain ⟨i, hi, rfl⟩ := List.mem_iff_getElem.1 hb
      rw [List.getElem_drop, byteBits_getElem]
      exact h _ (by omega)⟩
  rw [pendingBits, ← hzeros, List.take_append_drop]

/-- A flush emits the pending bits padded with zeros to a whole byte (40_bitio.md R123). -/
theorem streamBits_bwFlush {s : State} (h : writerInv s) :
    streamBits (bwFlush s).bout =
      writtenBits s ++ List.replicate ((8 - s.bwCnt.val) % 8) false := by
  rcases Nat.eq_zero_or_pos s.bwCnt.val with hcnt | hcnt
  · simp [bwFlush_of_empty hcnt, writtenBits, pendingBits, hcnt]
  · have hpad : (8 - s.bwCnt.val) % 8 = 8 - s.bwCnt.val := Nat.mod_eq_of_lt (by omega)
    simp [bwFlush_of_pending hcnt, streamBits_append, byteBits_bwBuf h, writtenBits, hpad]

/-! ### A sequence of WBIT and one WFLUSH (40_bitio.md R128) -/

theorem bwPutAll_mode (bits : List Bit) (s : State) : (bwPutAll bits s).mode = s.mode := by
  obtain ⟨_, _, _, h⟩ := bwPutAll_frame bits s
  rw [h]

theorem execAll_wbits {s : State} (h : s.mode = .run) (bits : List Bit) (rest : List Instr) :
    execAll (bits.map .wbit ++ rest) s = execAll rest (bwPutAll bits s) := by
  induction bits generalizing s with
  | nil => rfl
  | cons b bits ih =>
    have hput : (bwPut b s).mode = .run := (bwPutAll_mode [b] s).trans h
    rw [List.map_cons, List.cons_append, execAll, exec_wbit h, bwPutAll_cons]
    exact ih hput

theorem execAll_wbits_wflush {s : State} (h : s.mode = .run) (bits : List Bit) :
    execAll (bits.map .wbit ++ [.wflush]) s = .next (bwFlush (bwPutAll bits s)) := by
  rw [execAll_wbits h, execAll, exec_wflush ((bwPutAll_mode bits s).trans h)]
  rfl

/-- `BW_put` and `BW_flush` append whole bytes to BOUT. -/
theorem bwFlush_bwPutAll_bout (bits : List Bit) (s : State) :
    ∃ packed, (bwFlush (bwPutAll bits s)).bout = s.bout ++ packed := by
  obtain ⟨buf, cnt, emitted, hput⟩ := bwPutAll_frame bits s
  obtain ⟨last, hflush⟩ := bwFlush_frame (bwPutAll bits s)
  exact ⟨emitted ++ last, by rw [hflush, hput, List.append_assoc]⟩

theorem writtenBits_of_empty {s : State} (h : s.bwCnt.val = 0) : writtenBits s = streamBits s.bout := by
  simp [writtenBits, pendingBits, h]

/-- From an empty writer, the number of pending bits is the number of bits written, modulo 8. -/
theorem bwPutAll_bwCnt {s : State} (h : s.bwCnt.val = 0) (hinv : writerInv s) (bits : List Bit) :
    (bwPutAll bits s).bwCnt.val = bits.length % 8 := by
  have hlength := congrArg List.length (writtenBits_bwPutAll hinv bits)
  rw [writtenBits_of_empty h] at hlength
  simp only [writtenBits, List.length_append, streamBits_length, pendingBits_length] at hlength
  omega

/-- The bytes emitted hold the bits, then zeros to a whole byte (40_bitio.md R128). -/
theorem streamBits_packed {s : State} (h : s.bwCnt.val = 0) (hinv : writerInv s) {bits : List Bit}
    {packed : List Byte} (hout : (bwFlush (bwPutAll bits s)).bout = s.bout ++ packed) :
    streamBits packed = bits ++ List.replicate ((8 - bits.length % 8) % 8) false := by
  have hflush := streamBits_bwFlush (writerInv_bwPutAll hinv bits)
  rw [hout, streamBits_append, writtenBits_bwPutAll hinv, writtenBits_of_empty h,
    bwPutAll_bwCnt h hinv, List.append_assoc] at hflush
  exact List.append_cancel_left hflush

theorem length_of_streamBits_packed {bits : List Bit} {packed : List Byte}
    (h : streamBits packed = bits ++ List.replicate ((8 - bits.length % 8) % 8) false) :
    packed.length = (bits.length + 7) / 8 := by
  have hlength := congrArg List.length h
  simp only [streamBits_length, List.length_append, List.length_replicate] at hlength
  omega

end Sys2Proof.Machine
end

section
/-! SUPPORT. The reader's commands (40_bitio.md R121, R122, R126, R127): `BR_fill` and `BR_get` case by
case, and what a sequence of reads returns as long as bits are unread, and after them (R128, R129). -/

namespace Sys2Proof.Machine

variable (fill : Nat → Byte)

/-! ### `BR_fill` and RINIT -/

theorem brFill_of_byte {s : State} {byte : Byte} {rest : List Byte} (h : s.bin = byte :: rest) :
    brFill fill s = { s with bin := rest, brBuf := byte, brCnt := 0 } := by
  simp [brFill, h]

theorem brFill_of_empty {s : State} (h : s.bin = []) : brFill fill s =
    { s with brBuf := fill s.draws, draws := s.draws + 1, eos := true, brCnt := 0 } := by
  simp [brFill, h]

theorem execRinitWith_run {s : State} (h : s.mode = .run) :
    execRinitWith fill s = .next { brFill fill s with brInit := true } := inRun_run h _

theorem execRinitWith_of_byte {s : State} {byte : Byte} {rest : List Byte} (h : s.mode = .run)
    (hbin : s.bin = byte :: rest) : execRinitWith fill s =
      .next { s with bin := rest, brBuf := byte, brCnt := 0, brInit := true } := by
  rw [execRinitWith_run fill h, brFill_of_byte fill hbin]

theorem execRinitWith_of_empty {s : State} (h : s.mode = .run) (hbin : s.bin = []) :
    execRinitWith fill s = .next { s with
      brBuf := fill s.draws, draws := s.draws + 1, eos := true, brCnt := 0, brInit := true } := by
  rw [execRinitWith_run fill h, brFill_of_empty fill hbin]

/-- After RINIT on a nonempty BIN every bit of BIN is unread, and none was drawn. -/
theorem execRinitWith_unread {s : State} (h : s.mode = .run) (hbin : s.bin ≠ []) :
    ∃ t, execRinitWith fill s = .next t ∧ unreadBits t = streamBits s.bin ∧ t.eos = s.eos := by
  obtain ⟨byte, rest, hbin⟩ := List.exists_cons_of_ne_nil hbin
  exact ⟨_, execRinitWith_of_byte fill h hbin, by simp [unreadBits, hbin], rfl⟩

/-! ### `BR_get` and RBIT -/

theorem brGet_of_buffered {s : State} (h : s.brCnt.val < 8) : brGet fill s =
    (s.brBuf.getLsbD (7 - s.brCnt.val), { s with brCnt := s.brCnt + 1 }) := by
  have hrefill : brRefill fill s = s := if_neg fun hc => h.ne (congrArg Fin.val hc)
  rw [brGet, hrefill]

theorem brGet_of_byte {s : State} {byte : Byte} {rest : List Byte} (h : s.brCnt.val = 8)
    (hbin : s.bin = byte :: rest) : brGet fill s =
      (byte.getLsbD 7, { s with brBuf := byte, brCnt := 1, bin := rest }) := by
  have hrefill : brRefill fill s = brFill fill s := if_pos (Fin.ext h)
  rw [brGet, hrefill, brFill_of_byte fill hbin]
  rfl

theorem unreadBits_eq_nil {s : State} (h : s.brCnt.val = 8) (hbin : s.bin = []) :
    unreadBits s = [] := by
  simp [unreadBits, h, hbin, List.drop_of_length_le]

theorem execRbitWith_uninit {s : State} (h : s.mode = .run) (hinit : s.brInit = false) :
    execRbitWith fill s = .next (raiseError .readerUninit (encode .rbit) s) := by
  rw [execRbitWith, inRun_run h, if_pos hinit]

theorem execRbitWith_init {s : State} (h : s.mode = .run) (hinit : s.brInit = true) :
    execRbitWith fill s =
      .next { (brGet fill s).2 with res := zextBit32 (brGet fill s).1 } := by
  rw [execRbitWith, inRun_run h, if_neg (by simp [hinit])]

/-! ### A sequence of reads (40_bitio.md R128, R129) -/

/-- Reads that have unread bits return them in order, and draw nothing. -/
theorem readBits_unread {s : State} {bits rest : List Bit} (h : unreadBits s = bits ++ rest) :
    (readBits fill bits.length s).1 = bits ∧ unreadBits (readBits fill bits.length s).2 = rest ∧
      (readBits fill bits.length s).2.eos = s.eos := by
  induction bits generalizing s with
  | nil => exact ⟨rfl, h, rfl⟩
  | cons b bits ih =>
    obtain ⟨hbit, hunread, buf, cnt, bin, hframe⟩ := brGet_unread fill h
    obtain ⟨hbits, hrest, heos⟩ := ih hunread
    exact ⟨congrArg₂ List.cons hbit hbits, hrest, heos.trans (by rw [hframe])⟩

/-- One more read than there are unread bits draws a byte and sets EOS. -/
theorem readBits_succ_unread_eos {s : State} {bits : List Bit} (h : unreadBits s = bits) :
    (readBits fill (bits.length + 1) s).2.eos = true := by
  induction bits generalizing s with
  | nil =>
    show (brGet fill s).2.eos = true
    rw [brGet_drawn fill h]
  | cons b bits ih =>
    obtain ⟨-, hunread, -⟩ := brGet_unread fill h
    exact ih hunread

/-- With less than a byte unread, BIN is empty. -/
theorem bin_eq_nil_of_unread {s : State} (h : (unreadBits s).length < 8) : s.bin = [] := by
  simp only [unreadBits, List.length_append, streamBits_length] at h
  exact List.length_eq_zero_iff.1 (by omega)

/-- Reads of padding that is unread return zeros with no fill (40_bitio.md R129). -/
theorem readBits_padding {s : State} {n k : Nat} (h : unreadBits s = List.replicate n false)
    (hn : n < 8) (hk : k ≤ n) :
    (readBits fill k s).1 = List.replicate k false ∧ (readBits fill k s).2.eos = s.eos ∧
      (readBits fill k s).2.bin = [] := by
  obtain ⟨m, rfl⟩ := Nat.exists_eq_add_of_le hk
  obtain ⟨hbits, hrest, heos⟩ := readBits_unread fill (h.trans (List.replicate_add k m false))
  rw [List.length_replicate] at hbits hrest heos
  refine ⟨hbits, heos, bin_eq_nil_of_unread ?_⟩
  rw [hrest, List.length_replicate]
  omega

/-- RINIT and as many reads as BIN's first bits return these, with the others unread and EOS as it
was. -/
theorem rinit_readBits {r : State} {bits rest : List Bit} (h : r.mode = .run) (hbits : bits ≠ [])
    (hbin : streamBits r.bin = bits ++ rest) :
    ∃ r₁, execRinitWith fill r = .next r₁ ∧ (readBits fill bits.length r₁).1 = bits ∧
      unreadBits (readBits fill bits.length r₁).2 = rest ∧
      (readBits fill bits.length r₁).2.eos = r.eos := by
  have hne : r.bin ≠ [] := by
    intro hnil
    simp [hnil, hbits] at hbin
  obtain ⟨r₁, hr₁, hunread, heos⟩ := execRinitWith_unread fill h hne
  obtain ⟨hread, hrest, hkeep⟩ := readBits_unread fill (hunread.trans hbin)
  exact ⟨r₁, hr₁, hread, hrest, hkeep.trans heos⟩

end Sys2Proof.Machine
end

section
/-! The statements about bit I/O (40_bitio.md), settled from the lemmas above. -/

open Sys2Proof Sys2Proof.Machine

/-- Settles O56: the bytes emitted hold the bits and then zeros, and RINIT makes all of them unread. -/
theorem bitRoundTrip : Obligations.BitRoundTrip := by
  refine ⟨fun s hrun hcnt hinv => ?_, fun fill r hrun hbin => ?_, fun s bits hrun hcnt hinv hbits => ?_⟩
  · rw [exec_wflush hrun, bwFlush_eq_self (congrArg Fin.val hcnt) hinv]
  · exact ⟨_, execRinitWith_of_empty fill hrun hbin, rfl, rfl⟩
  · obtain ⟨packed, hout⟩ := bwFlush_bwPutAll_bout bits s
    have hpacked := streamBits_packed (congrArg Fin.val hcnt) hinv hout
    refine ⟨_, packed, execAll_wbits_wflush hrun bits, hout, length_of_streamBits_packed hpacked,
      hpacked, fun fill r hr _ heos hbin => ?_⟩
    obtain ⟨r₁, hr₁, hread, -, hkeep⟩ := rinit_readBits fill hr hbits (hbin ▸ hpacked)
    exact ⟨r₁, hr₁, hread, hkeep.trans heos⟩

/-- Settles O57: after the bits only the padding is unread, which is less than a byte. -/
theorem paddingReadsWithoutAFill : Obligations.PaddingReadsWithoutAFill := by
  intro fill r bits packed hrun _ heos hbin hbits hpacked
  obtain ⟨r₁, hr₁, -, hpadding, hkeep⟩ := rinit_readBits fill hrun hbits (hbin ▸ hpacked)
  refine ⟨r₁, hr₁, fun k hk => ?_, ?_⟩
  · obtain ⟨hzeros, hsame, hempty⟩ := readBits_padding fill hpadding (Nat.mod_lt _ (by decide)) hk
    exact ⟨hzeros, (hsame.trans hkeep).trans heos, hempty⟩
  · simpa using readBits_succ_unread_eos fill hpadding

/-- Settles O31: WBIT is `BW_put`, full buffer or not. -/
theorem wbitAppendsOneBit : Obligations.WbitAppendsOneBit := by
  refine fun b => ⟨by cases b <;> rfl, fun s hrun => ⟨bwPutBuf b s, getLsbD_bwPutBuf b s, ?_⟩⟩
  rw [exec_wbit hrun]
  refine ⟨fun hfull => ?_, fun hlt => ?_, fun hinv => ⟨_, rfl, writtenBits_bwPut hinv b⟩⟩
  · rw [bwPut_of_full b hfull]
  · exact ⟨s.bwCnt + 1, bwCnt_succ fun hc => hlt.ne (congrArg Fin.val hc),
      by rw [bwPut_of_not_full b hlt]⟩

/-- Settles O32: WFLUSH is `BW_flush`, with bits pending or with none. -/
theorem wflushEmitsThePendingByte : Obligations.WflushEmitsThePendingByte := by
  refine ⟨rfl, fun s hrun => ?_⟩
  rw [exec_wflush hrun]
  refine ⟨fun hpending => ?_, fun hempty => ?_, fun hempty hinv => ?_,
    fun hpending hinv => ⟨_, rfl, ?_⟩⟩
  · rw [bwFlush_of_pending hpending]
  · rw [bwFlush_of_empty hempty]
  · rw [bwFlush_eq_self hempty hinv]
  · rw [streamBits_bwFlush hinv, Nat.mod_eq_of_lt (by omega)]

/-- Settles O33: RINIT is `BR_fill`, with a byte in BIN or with none. -/
theorem rinitConstructsTheReader : Obligations.RinitConstructsTheReader :=
  ⟨rfl, fun _ hrun => ⟨fun _ _ => execRinitWith_of_byte _ hrun,
    fun fill => execRinitWith_of_empty fill hrun, rfl⟩⟩

/-- Settles O34: RBIT is `BR_get` once the reader is constructed, and error entry before. -/
theorem rbitReturnsTheNextBit : Obligations.RbitReturnsTheNextBit := by
  refine ⟨rfl, fun s hrun => ⟨fun hinit => ?_, fun hinit hlt => ?_, fun byte rest hinit h8 hbin => ?_,
    fun fill hinit h8 hbin => ?_, rfl⟩⟩
  · exact execRbitWith_uninit _ hrun hinit
  · refine ⟨s.brCnt + 1, brCnt_succ fun hc => hlt.ne (congrArg Fin.val hc), ?_⟩
    exact (execRbitWith_init _ hrun hinit).trans (by rw [brGet_of_buffered _ hlt])
  · exact (execRbitWith_init _ hrun hinit).trans (by rw [brGet_of_byte _ h8 hbin])
  · rw [execRbitWith_init fill hrun hinit, brGet_drawn fill (unreadBits_eq_nil h8 hbin)]

end

section
/-! SUPPORT. Assembled words decode to their commands (30_encoding.md R95, R100): each is a well-formed
word of the opcode of its command's row. -/

namespace Sys2Proof

/-- A well-formed word is the command of the row of its opcode (30_encoding.md R94, R95). -/
theorem decode_of_mem {r : Row} (hr : r ∈ opcodeMap) {w : Word} (hopc : opcOf w = r.opc)
    (hwf : wordWF w = true) : decode w = some (r.command (symOf w) (bOf w) (immOf w)) :=
  (decode_eq_some_iff_row w _).2 ⟨r, hr, (accepts_iff_of_mem hr w).2 ⟨hopc, hwf⟩, rfl⟩

/-- The same, for a word given by its fields. -/
theorem decode_wordOf {r : Row} (hr : r ∈ opcodeMap) {opc : BitVec 8} (hopc : r.opc = opc) {sym : Sym}
    {b : Bit} {imm : Count} (hwf : wordWF (wordOf opc sym b imm) = true) :
    decode (wordOf opc sym b imm) = some (r.command sym b imm) := by
  simpa using decode_of_mem hr ((opcOf_wordOf opc sym b imm).trans hopc.symm) hwf

theorem decode_encode_fwr (sym : Sym) (imm : Count) :
    decode (encode (.fwr sym imm)) = some (.fwr sym imm) :=
  decode_wordOf (r := opcodeMap[2]) (opc := 0x11) (List.getElem_mem _) rfl
    (Laws.WellFormedWord.fwr sym imm)

theorem decode_encode_finc (sym : Sym) : decode (encode (.finc sym)) = some (.finc sym) :=
  decode_wordOf (r := opcodeMap[3]) (opc := 0x12) (List.getElem_mem _) rfl
    (Laws.WellFormedWord.finc sym)

theorem decode_encode_frd (sym : Sym) : decode (encode (.frd sym)) = some (.frd sym) :=
  decode_wordOf (r := opcodeMap[4]) (opc := 0x13) (List.getElem_mem _) rfl
    (Laws.WellFormedWord.frd sym)

end Sys2Proof
end

section
/-! SUPPORT. The frequency-table commands in RUN mode (41_frequency.md R140 to R143), case by case, and
what an entry of 0 means for the next BUILD (42_build.md R163). -/

namespace Sys2Proof.Machine

section

variable {s : State} (h : s.mode = .run)
include h

theorem exec_fclr : exec .fclr s = .next { s with ft := s.ft.clear } := by
  rw [exec, execFclr, inRun_run h]

theorem exec_fwr (sym : Sym) (imm : Count) :
    exec (.fwr sym imm) s = .next { s with ft := s.ft.write (ftIndex sym) imm } := by
  rw [exec, execFwr, inRun_run h]

theorem exec_finc_of_ne_max {sym : Sym} (hread : s.ft.read (ftIndex sym) ≠ Config.countMax) :
    exec (.finc sym) s =
      .next { s with ft := s.ft.write (ftIndex sym) (s.ft.read (ftIndex sym) + 1) } := by
  rw [exec, execFinc, inRun_run h, if_neg hread]

theorem exec_finc_of_max {sym : Sym} (hread : s.ft.read (ftIndex sym) = Config.countMax) :
    exec (.finc sym) s = .next (raiseError .freqOverflow (encode (.finc sym)) s) := by
  rw [exec, execFinc, inRun_run h, if_pos hread]

theorem exec_frd (sym : Sym) :
    exec (.frd sym) s = .next { s with res := s.ft.read (ftIndex sym) } := by
  rw [exec, execFrd, inRun_run h]

end

/-- Below the maximum a count does not wrap (41_frequency.md R142). -/
theorem count_succ_toNat {n : Count} (h : n ≠ Config.countMax) : (n + 1).toNat = n.toNat + 1 := by
  unfold Config.countMax at h
  bv_omega

/-- A symbol whose entry is 0 has no leaf (42_build.md R163). -/
theorem sym_ne_of_mem_leavesOf {f : Memory} {sym : Sym} (h : f.read (ftIndex sym) = 0)
    {leaf : CodeTree} (hleaf : leaf ∈ leavesOf f) : leaf.sym ≠ sym := by
  obtain ⟨sym', hread, rfl⟩ := mem_leavesOf.1 hleaf
  rintro rfl
  exact hread h

end Sys2Proof.Machine
end

section
/-! The statements about the frequency table (41_frequency.md), settled from the lemmas above. -/

open Sys2Proof Sys2Proof.Machine

/-- Settles O21: the cleared table reads 0 everywhere, and is the table that reset leaves. -/
theorem fclrClearsTheTable : Obligations.FclrClearsTheTable :=
  ⟨rfl, fun s hrun => ⟨s.ft.clear, exec_fclr hrun, Memory.read_clear s.ft⟩, exec_fclr rfl⟩

/-- Settles O22: read after write, at the entry written and at every other. -/
theorem fwrWritesOneEntry : Obligations.FwrWritesOneEntry := by
  refine fun sym n => ⟨wordOf_false 0x11 sym n ▸ decode_encode_fwr sym n, fun s hrun => ?_⟩
  have hsame := Memory.read_write_same s.ft (ftIndex sym) n
  exact ⟨_, exec_fwr hrun sym n, hsame, fun a ha => Memory.read_write_other s.ft n ha,
    fun hzero leaf hleaf => sym_ne_of_mem_leavesOf (hsame.trans hzero) hleaf⟩

/-- Settles O23: the count is checked against the maximum before the sum is written. -/
theorem fincCountsOneOccurrence : Obligations.FincCountsOneOccurrence := by
  intro sym
  have hword : encode (.finc sym) = 0x12#8 ++ sym ++ 0x000000000000#48 := wordOf_sym 0x12 sym
  refine ⟨hword ▸ decode_encode_finc sym, fun s hrun => ⟨fun hbelow => ?_, fun hmax => ?_⟩⟩
  · refine ⟨_, exec_finc_of_ne_max hrun hbelow, ?_, fun a ha => Memory.read_write_other s.ft _ ha⟩
    rw [Memory.read_write_same, count_succ_toNat hbelow]
  · rw [exec_finc_of_max hrun hmax, hword]
    rfl

/-- Settles O24: FRD writes RES alone. -/
theorem frdReadsOneEntry : Obligations.FrdReadsOneEntry :=
  fun sym => ⟨wordOf_sym 0x13 sym ▸ decode_encode_frd sym, fun _ hrun => exec_frd hrun sym⟩

end

section
/-! SUPPORT. The extraction and the construction of a tree (42_build.md R162 to R167): on distinct
symbols the extracted node is the unique one of highest priority, and `BuildTree` from no node, one
node and more. -/

namespace Sys2Proof.Machine

/-! ### The extracted node (42_build.md R162) -/

/-- Nodes with different symbols have different ranks, so the lower rank is the higher priority. -/
theorem higher_of_rank_le {a b : CodeTree} (hsym : a.sym ≠ b.sym) (hrank : rank a ≤ rank b) :
    higher a b = true :=
  (higher_iff a b).2 (hrank.lt_of_ne fun heq => hsym (rank_inj heq).2)

theorem exists_extractHighest {q : List CodeTree} (h : q ≠ []) :
    ∃ x r, extractHighest q = some (x, r) := by
  obtain ⟨x, q, rfl⟩ := List.exists_cons_of_ne_nil h
  exact ⟨_, _, rfl⟩

/-- On distinct symbols the extracted node beats every other. -/
theorem extractHighest_higher {q r : List CodeTree} {x : CodeTree} (hq : (q.map CodeTree.sym).Nodup)
    (h : extractHighest q = some (x, r)) : ∀ y ∈ r, higher x y = true := by
  obtain ⟨hperm, hrank⟩ := extractHighest_spec h
  obtain ⟨hx, -⟩ := List.nodup_cons.1 ((hperm.map CodeTree.sym).nodup_iff.1 hq)
  exact fun y hy => higher_of_rank_le (fun heq => hx (heq ▸ List.mem_map_of_mem hy)) (hrank y hy)

/-- Two nodes that beat all the others of one collection are the same node. -/
theorem eq_of_perm_of_higher {x x' : CodeTree} {r r' : List CodeTree} (hperm : (x :: r).Perm (x' :: r'))
    (h : ∀ y ∈ r, higher x y = true) (h' : ∀ y ∈ r', higher x' y = true) : x = x' := by
  by_contra hne
  have hx : x ∈ r' := (List.mem_cons.1 (hperm.mem_iff.1 List.mem_cons_self)).resolve_left hne
  have hx' : x' ∈ r :=
    (List.mem_cons.1 (hperm.mem_iff.2 List.mem_cons_self)).resolve_left (Ne.symm hne)
  exact ((higher_iff _ _).1 (h x' hx')).asymm ((higher_iff _ _).1 (h' x hx))

/-- The order of insertion does not matter: a rearranged collection gives the same node, and the rest
rearranged. -/
theorem extractHighest_perm {q q' r : List CodeTree} {x : CodeTree}
    (hq : (q.map CodeTree.sym).Nodup) (hperm : q.Perm q') (h : extractHighest q = some (x, r)) :
    ∃ r', extractHighest q' = some (x, r') ∧ r.Perm r' := by
  have hspec := (extractHighest_spec h).1
  have hne : q' ≠ [] := by
    rintro rfl
    simp [hperm.eq_nil, extractHighest] at h
  obtain ⟨x', r', h'⟩ := exists_extractHighest hne
  have hrest : (x :: r).Perm (x' :: r') :=
    (hspec.symm.trans hperm).trans (extractHighest_spec h').1
  obtain rfl := eq_of_perm_of_higher hrest (extractHighest_higher hq h)
    (extractHighest_higher ((hperm.map CodeTree.sym).nodup_iff.1 hq) h')
  exact ⟨r', h', hrest.cons_inv⟩

/-! ### `BuildTree` (42_build.md R165) -/

@[simp] theorem buildFrom_singleton (t : CodeTree) : buildFrom [t] = some t := rfl

/-- One round of the construction: the two highest nodes are merged, and one unit of fuel goes with the
one node that the collection loses. -/
theorem buildFrom_merge {q q₁ q₂ : List CodeTree} {a b : CodeTree}
    (ha : extractHighest q = some (a, q₁)) (hb : extractHighest q₁ = some (b, q₂)) :
    buildFrom q = buildFrom (mergeNodes a b :: q₂) := by
  have hlength : q.length = (mergeNodes a b :: q₂).length + 1 := by
    rw [extractHighest_length ha, extractHighest_length hb, List.length_cons]
  simp only [buildFrom, hlength, buildLoop, ha, hb]

theorem buildTree_congr {f g : Memory} (h : ∀ sym, f.read (ftIndex sym) = g.read (ftIndex sym)) :
    buildTree f = buildTree g := by
  rw [buildTree, buildTree, leavesOf_congr h]

/-- A table with one counted symbol has that symbol's leaf for its tree (42_build.md R167). -/
theorem buildTree_of_single {f : Memory} {sym : Sym} (h : f.read (ftIndex sym) ≠ 0)
    (hothers : ∀ other, other ≠ sym → f.read (ftIndex other) = 0) :
    buildTree f = some (.leaf sym (zextCount40 (f.read (ftIndex sym)))) := by
  have hmem : ∀ other, other ∈ countedSyms f ↔ other ∈ [sym] := by
    intro other
    rw [mem_countedSyms, List.mem_singleton]
    exact ⟨fun hne => by_contra fun heq => hne (hothers other heq), fun heq => heq ▸ h⟩
  have hsyms : countedSyms f = [sym] := List.perm_singleton.1
    ((List.perm_ext_iff_of_nodup (countedSyms_nodup f) (List.nodup_singleton sym)).2 hmem)
  rw [buildTree, leavesOf_eq_map, hsyms]
  rfl

end Sys2Proof.Machine
end

section
/-! SUPPORT. BUILD in RUN mode (42_build.md R166): TS, TOTAL and NSYM, the two sums exact, and DEC under
the single leaf (R167). -/

namespace Sys2Proof.Machine

/-! ### TOTAL and NSYM -/

/-- A sum of bit vectors whose exact sum fits does not wrap. -/
theorem toNat_sum_of_lt {n : Nat} {l : List (BitVec n)} (h : (l.map BitVec.toNat).sum < 2 ^ n) :
    l.sum.toNat = (l.map BitVec.toNat).sum := by
  induction l with
  | nil => simp
  | cons x l ih =>
    rw [List.map_cons, List.sum_cons] at h ⊢
    rw [List.sum_cons, BitVec.toNat_add, ih (by omega), Nat.mod_eq_of_lt h]

/-- The exact sum of the 256 entries. -/
def entriesSum (f : Memory) : Nat := (symbols.map fun sym => (f.read (ftIndex sym)).toNat).sum

theorem entriesSum_le (f : Memory) : entriesSum f ≤ 256 * (2 ^ 32 - 1) := by
  have hbound : ∀ n ∈ symbols.map fun sym => (f.read (ftIndex sym)).toNat, n ≤ 2 ^ 32 - 1 := by
    intro n hn
    obtain ⟨sym, -, rfl⟩ := List.mem_map.1 hn
    exact Nat.le_pred_of_lt (f.read (ftIndex sym)).isLt
  simpa [entriesSum] using List.sum_le_card_nsmul _ _ hbound

/-- TOTAL does not wrap: 256 entries of 32 bits sum to less than 2^40. -/
theorem totalOf_toNat (f : Memory) : (totalOf f).toNat = entriesSum f := by
  have hentries : ((symbols.map fun sym => zextCount40 (f.read (ftIndex sym))).map
      BitVec.toNat).sum = entriesSum f := by
    simp only [List.map_map, Function.comp_def, zextCount40_toNat, entriesSum]
  have hle := entriesSum_le f
  rw [totalOf, toNat_sum_of_lt (by omega), hentries]

theorem nsymOf_toNat_eq_countP (f : Memory) :
    (nsymOf f).toNat = symbols.countP fun sym => f.read (ftIndex sym) != 0 := by
  rw [nsymOf_toNat, leavesOf_length, countedSyms, List.countP_eq_length_filter]

theorem totalOf_eq_zero {f : Memory} (h : ∀ sym, f.read (ftIndex sym) = 0) : totalOf f = 0 := by
  rw [← leavesOf_counts_sum, leavesOf_eq_nil.2 h]
  rfl

theorem nsymOf_eq_zero {f : Memory} (h : ∀ sym, f.read (ftIndex sym) = 0) : nsymOf f = 0 := by
  refine BitVec.eq_of_toNat_eq ?_
  rw [nsymOf_toNat, leavesOf_eq_nil.2 h]
  rfl

/-! ### TS -/

theorem treeStateOf_eq_empty {o : Option CodeTree} : treeStateOf o = .empty ↔ o = none := by
  cases o <;> simp [treeStateOf]

theorem treeStateOf_eq_built {o : Option CodeTree} {t : CodeTree} :
    treeStateOf o = .built t ↔ o = some t := by
  cases o <;> simp [treeStateOf]

theorem treeField_of_empty {s : State} (h : s.ts = .empty) : treeField s = 0b01 := by
  simp only [treeField, h]

theorem treeField_of_built {s : State} {t : CodeTree} (h : s.ts = .built t) : treeField s = 0b10 := by
  simp only [treeField, h]

/-! ### BUILD, and DEC under the tree of a single symbol -/

/-- The state after a BUILD in RUN mode. -/
def afterBuild (s : State) : State :=
  { s with ts := treeStateOf (buildTree s.ft), total := totalOf s.ft, nsym := nsymOf s.ft }

theorem exec_build {s : State} (h : s.mode = .run) : exec .build s = .next (afterBuild s) :=
  inRun_run h afterBuild

theorem afterBuild_ts_eq_empty {s : State} :
    (afterBuild s).ts = .empty ↔ ∀ sym, s.ft.read (ftIndex sym) = 0 :=
  treeStateOf_eq_empty.trans buildTree_eq_none

theorem afterBuild_ts_eq_built {s : State} {t : CodeTree} :
    (afterBuild s).ts = .built t ↔ buildTree s.ft = some t := treeStateOf_eq_built

theorem treeField_afterBuild {s : State} (h : (afterBuild s).ts ≠ .empty) :
    treeField (afterBuild s) = 0b10 := by
  obtain ⟨t, ht⟩ := Option.ne_none_iff_exists'.1 (mt treeStateOf_eq_empty.2 h)
  exact treeField_of_built (afterBuild_ts_eq_built.2 ht)

theorem singleFlag_afterBuild {s : State} :
    singleFlag (afterBuild s) = true ↔ ∃ sym count, buildTree s.ft = some (.leaf sym count) := by
  simp only [singleFlag_iff, afterBuild_ts_eq_built]

/-- Under a single leaf DEC reads one bit of any value (42_build.md R167, 43_encode_decode.md R182). -/
theorem execDecWith_of_leaf (fill : Nat → Byte) {s : State} {sym : Sym} {count : NodeCount}
    (h : s.mode = .run) (hts : s.ts = .built (.leaf sym count)) (hinit : s.brInit = true) :
    execDecWith fill s =
      .next (emitSym sym { (brGet fill s).2 with res := zextSym32 sym }) := by
  simp [execDecWith, inRun_run h, hts, hinit, decodeSym]

end Sys2Proof.Machine
end

section
/-! SUPPORT. The codes of a tree (42_build.md R168 to R173): a path starts with the side its symbol is
on, so that no code begins another, and every step of a path is counted by one Node. -/

namespace Sys2Proof.Machine

variable {t left right : CodeTree} {sym nsym : Sym} {count : NodeCount}

/-! ### Paths (42_build.md R168) -/

theorem path_leaf_eq_some {sym' : Sym} {p : List Bit} :
    (CodeTree.leaf sym' count).path sym = some p ↔ sym' = sym ∧ p = [] := by
  simp [CodeTree.path, eq_comm]

theorem path_node_of_left {p : List Bit} (h : left.path sym = some p) :
    (CodeTree.node nsym count left right).path sym = some (false :: p) := by
  simp only [CodeTree.path, h]

theorem path_node_of_right (hleft : left.path sym = none) :
    (CodeTree.node nsym count left right).path sym = (right.path sym).map (true :: ·) := by
  cases h : right.path sym <;> simp only [CodeTree.path, hleft, h, Option.map]

/-- A path below a Node is a left step and a path of the left child, or a right step and a path of the
right child. -/
theorem path_node_cases {p : List Bit} (h : (CodeTree.node nsym count left right).path sym = some p) :
    ∃ p', (left.path sym = some p' ∧ p = false :: p') ∨
      (right.path sym = some p' ∧ p = true :: p') := by
  cases hleft : left.path sym with
  | some p' =>
    rw [path_node_of_left hleft, Option.some.injEq] at h
    exact ⟨p', .inl ⟨rfl, h.symm⟩⟩
  | none =>
    rw [path_node_of_right hleft, Option.map_eq_some_iff] at h
    obtain ⟨p', hright, rfl⟩ := h
    exact ⟨p', .inr ⟨hright, rfl⟩⟩

/-- The symbols with a path are those of the leaves. -/
theorem path_eq_none_iff : t.path sym = none ↔ sym ∉ t.leafSyms := by
  induction t with
  | leaf sym' count => simp [CodeTree.path, eq_comm]
  | node nsym count left right ihl ihr =>
    rw [leafSyms_node, List.mem_append, not_or, ← ihl, ← ihr]
    cases hleft : left.path sym with
    | some p => simp [path_node_of_left hleft]
    | none => simp [path_node_of_right hleft]

theorem exists_path (h : sym ∈ t.leafSyms) : ∃ p, t.path sym = some p :=
  Option.ne_none_iff_exists'.1 fun hnone => path_eq_none_iff.1 hnone h

theorem path_length_le_depth {p : List Bit} (h : t.path sym = some p) : p.length ≤ t.depth := by
  induction t generalizing p with
  | leaf sym' count =>
    obtain ⟨-, rfl⟩ := path_leaf_eq_some.1 h
    exact Nat.zero_le _
  | node nsym count left right ihl ihr =>
    rw [CodeTree.depth]
    obtain ⟨p', ⟨hp, rfl⟩ | ⟨hp, rfl⟩⟩ := path_node_cases h
    · exact Nat.succ_le_succ ((ihl hp).trans (Nat.le_max_left _ _))
    · exact Nat.succ_le_succ ((ihr hp).trans (Nat.le_max_right _ _))

/-- A path that begins another turns the same way at every Node, and ends at the same leaf. -/
theorem sym_eq_of_path_prefix {a b : Sym} {p p' : List Bit} (ha : t.path a = some p)
    (hb : t.path b = some p') (h : p <+: p') : a = b := by
  induction t generalizing p p' with
  | leaf sym count => exact (path_leaf_eq_some.1 ha).1.symm.trans (path_leaf_eq_some.1 hb).1
  | node nsym count left right ihl ihr =>
    obtain ⟨pa, hpa⟩ := path_node_cases ha
    obtain ⟨pb, hpb⟩ := path_node_cases hb
    rcases hpa, hpb with ⟨⟨hpa, rfl⟩ | ⟨hpa, rfl⟩, ⟨hpb, rfl⟩ | ⟨hpb, rfl⟩⟩
    · exact ihl hpa hpb (List.cons_prefix_cons.1 h).2
    · simp at h
    · simp at h
    · exact ihr hpa hpb (List.cons_prefix_cons.1 h).2

/-! ### Codes (42_build.md R167 to R169) -/

theorem code_leaf_eq_some {sym' : Sym} {c : List Bit} :
    (CodeTree.leaf sym' count).code sym = some c ↔ sym' = sym ∧ c = [false] := by
  simp [CodeTree.code, eq_comm]

@[simp] theorem code_node :
    (CodeTree.node nsym count left right).code sym = (CodeTree.node nsym count left right).path sym :=
  rfl

theorem code_ne_nil {c : List Bit} (h : t.code sym = some c) : c ≠ [] := by
  cases t with
  | leaf sym' count =>
    obtain ⟨-, rfl⟩ := code_leaf_eq_some.1 h
    exact List.cons_ne_nil _ _
  | node nsym count left right =>
    rw [code_node] at h
    obtain ⟨p, ⟨-, rfl⟩ | ⟨-, rfl⟩⟩ := path_node_cases h <;> exact List.cons_ne_nil _ _

/-- A code has a bit for each level of its leaf; only under a single leaf is it longer. -/
theorem code_length_le {c : List Bit} (h : t.code sym = some c) : c.length ≤ max 1 t.depth := by
  cases t with
  | leaf sym' count =>
    obtain ⟨-, rfl⟩ := code_leaf_eq_some.1 h
    exact Nat.le_max_left _ _
  | node nsym count left right => exact (path_length_le_depth h).trans (Nat.le_max_right _ _)

theorem sym_eq_of_code_prefix {a b : Sym} {ca cb : List Bit} (ha : t.code a = some ca)
    (hb : t.code b = some cb) (h : ca <+: cb) : a = b := by
  cases t with
  | leaf sym count => exact (code_leaf_eq_some.1 ha).1.symm.trans (code_leaf_eq_some.1 hb).1
  | node nsym count left right => exact sym_eq_of_path_prefix ha hb h

theorem codes_cons_eq_some {rest : List Sym} {cs : List Bit} :
    t.codes (sym :: rest) = some cs ↔
      ∃ c cs', t.code sym = some c ∧ t.codes rest = some cs' ∧ c ++ cs' = cs := by
  rw [CodeTree.codes]
  cases t.code sym <;> cases t.codes rest <;> simp

/-- A concatenation of codes that is empty is that of no symbol. -/
theorem codes_eq_some_nil {x : List Sym} (h : t.codes x = some []) : x = [] := by
  cases x with
  | nil => rfl
  | cons a x =>
    obtain ⟨c, cs, hc, -, hnil⟩ := codes_cons_eq_some.1 h
    exact absurd (List.append_eq_nil_iff.1 hnil).1 (code_ne_nil hc)

/-- The unique parse (42_build.md R169): of the first codes of two parses one begins the other, so they
are the code of one symbol. -/
theorem codes_inj {x y : List Sym} {cs : List Bit} (hx : t.codes x = some cs)
    (hy : t.codes y = some cs) : x = y := by
  induction x generalizing y cs with
  | nil =>
    obtain rfl : [] = cs := Option.some.inj hx
    exact (codes_eq_some_nil hy).symm
  | cons a x ih =>
    cases y with
    | nil =>
      obtain rfl : [] = cs := Option.some.inj hy
      exact codes_eq_some_nil hx
    | cons b y =>
      obtain ⟨ca, csa, hca, hcsa, rfl⟩ := codes_cons_eq_some.1 hx
      obtain ⟨cb, csb, hcb, hcsb, heq⟩ := codes_cons_eq_some.1 hy
      obtain rfl : a = b := by
        rcases List.prefix_or_prefix_of_prefix (List.prefix_append ca csa)
          (heq ▸ List.prefix_append cb csb) with h | h
        · exact sym_eq_of_code_prefix hca hcb h
        · exact (sym_eq_of_code_prefix hcb hca h).symm
      obtain rfl : cb = ca := Option.some.inj (hcb.symm.trans hca)
      obtain rfl : csb = csa := List.append_cancel_left heq
      rw [ih hcsa hcsb]

/-! ### Sizes (42_build.md R170) -/

theorem nodeCount_succ (t : CodeTree) : t.nodeCount + 1 = t.leafSyms.length := by
  induction t with
  | leaf sym count => rfl
  | node sym count left right ihl ihr =>
    rw [leafSyms_node, List.length_append, ← ihl, ← ihr, CodeTree.nodeCount]
    omega

theorem depth_lt_leafSyms_length (t : CodeTree) : t.depth < t.leafSyms.length := by
  induction t with
  | leaf sym count => exact Nat.one_pos
  | node sym count left right ihl ihr =>
    rw [leafSyms_node, List.length_append, CodeTree.depth]
    omega

/-! ### The encoded length (42_build.md R173) -/

/-- The number of steps from the root to a symbol's leaf. -/
def CodeTree.pathLength (t : CodeTree) (sym : Sym) : Nat := ((t.path sym).getD []).length

theorem pathLength_node_of_left (h : sym ∈ left.leafSyms) :
    (CodeTree.node nsym count left right).pathLength sym = left.pathLength sym + 1 := by
  obtain ⟨p, hp⟩ := exists_path h
  simp [CodeTree.pathLength, path_node_of_left hp, hp]

theorem pathLength_node_of_right (hleft : sym ∉ left.leafSyms) (hright : sym ∈ right.leafSyms) :
    (CodeTree.node nsym count left right).pathLength sym = right.pathLength sym + 1 := by
  obtain ⟨p, hp⟩ := exists_path hright
  simp [CodeTree.pathLength, path_node_of_right (path_eq_none_iff.2 hleft), hp]

/-- The sum over the leaves of a tree, each count times a length. -/
def CodeTree.weightedSum (t : CodeTree) (len : Sym → Nat) : Nat :=
  (t.leaves.map fun x => x.count.toNat * len x.sym).sum

theorem weightedSum_congr {len len' : Sym → Nat} (h : ∀ sym ∈ t.leafSyms, len sym = len' sym) :
    t.weightedSum len = t.weightedSum len' := by
  refine congrArg List.sum (List.map_congr_left fun x hx => ?_)
  rw [h x.sym (List.mem_map_of_mem hx)]

theorem weightedSum_succ (t : CodeTree) (len : Sym → Nat) :
    (t.weightedSum fun sym => len sym + 1) = t.weightedSum len + t.weight := by
  simp only [CodeTree.weightedSum, CodeTree.weight, Nat.mul_succ, List.sum_map_add]

theorem weightedSum_node (len : Sym → Nat) :
    (CodeTree.node nsym count left right).weightedSum len =
      left.weightedSum len + right.weightedSum len := by
  simp [CodeTree.weightedSum, CodeTree.leaves]

/-- Each step of a path is in the count of the Node it leaves: the leaves' counts times their depths
sum to the counts of the Nodes. -/
theorem weightedSum_pathLength (hsums : t.sumsOk = true) (hnodup : t.leafSyms.Nodup) :
    t.weightedSum t.pathLength = t.nodeCountSum := by
  induction t with
  | leaf sym count =>
    simp [CodeTree.weightedSum, CodeTree.leaves, CodeTree.sym, CodeTree.pathLength, CodeTree.path,
      CodeTree.nodeCountSum]
  | node sym count left right ihl ihr =>
    obtain ⟨-, -, hl, hr⟩ := sumsOk_node.1 hsums
    have hroot : count.toNat = left.weight + right.weight :=
      (count_eq_weight hsums).trans (weight_node sym count left right)
    rw [leafSyms_node] at hnodup
    obtain ⟨hnl, hnr, hdisjoint⟩ := List.nodup_append'.1 hnodup
    have hleft := weightedSum_congr fun s (hs : s ∈ left.leafSyms) =>
      pathLength_node_of_left (nsym := sym) (count := count) (right := right) hs
    have hright := weightedSum_congr fun s (hs : s ∈ right.leafSyms) =>
      pathLength_node_of_right (nsym := sym) (count := count) (fun h => hdisjoint h hs) hs
    rw [weightedSum_node, hleft, hright, weightedSum_succ, weightedSum_succ, ihl hl hnl, ihr hr hnr,
      CodeTree.nodeCountSum]
    omega

/-- A sum over the whole table is the sum over the leaves of its tree, because an entry of 0 adds
nothing. -/
theorem sum_entries_eq_weightedSum {f : Memory} (h : buildTree f = some t) (len : Sym → Nat) :
    (symbols.map fun sym => (f.read (ftIndex sym)).toNat * len sym).sum = t.weightedSum len := by
  rw [CodeTree.weightedSum, ((buildTree_inv h).2.map _).sum_eq, leavesOf]
  induction symbols with
  | nil => rfl
  | cons sym syms ih =>
    by_cases h0 : f.read (ftIndex sym) = 0#32 <;>
      simpa [h0, CodeTree.count, CodeTree.sym, zextCount40_toNat] using ih

theorem encodedLength_eq_weightedSum {f : Memory} (h : buildTree f = some t) :
    encodedLength f t = t.weightedSum fun sym => ((t.code sym).getD []).length :=
  sum_entries_eq_weightedSum h _

theorem encodedLength_of_node {f : Memory}
    (h : buildTree f = some (.node nsym count left right)) :
    encodedLength f (.node nsym count left right) =
      (CodeTree.node nsym count left right).nodeCountSum := by
  obtain ⟨hsums, hnodup, -⟩ := wf_iff.1 (buildTree_wf h)
  exact (encodedLength_eq_weightedSum h).trans (weightedSum_pathLength hsums hnodup)

theorem encodedLength_of_leaf {f : Memory} (h : buildTree f = some (.leaf sym count)) :
    encodedLength f (.leaf sym count) = (totalOf f).toNat := by
  rw [encodedLength_eq_weightedSum h, ← buildTree_count h]
  simp [CodeTree.weightedSum, CodeTree.leaves, CodeTree.sym, CodeTree.code, CodeTree.count]

end Sys2Proof.Machine
end

section
/-! The statements about the construction of the tree (42_build.md), settled from the lemmas above. -/

open Sys2Proof Sys2Proof.Machine

/-- Settles O25: the state after BUILD, with sums that do not wrap. -/
theorem buildComputesTreeTotalAndNsym : Obligations.BuildComputesTreeTotalAndNsym := by
  refine ⟨rfl, by decide, fun s hrun => ⟨afterBuild s, exec_build hrun, rfl, treeStateOf_eq_empty.2,
    fun r => treeStateOf_eq_built.2, totalOf_toNat s.ft, nsymOf_toNat_eq_countP s.ft,
    afterBuild_ts_eq_empty.symm, fun hempty => ?_, treeField_afterBuild, singleFlag_afterBuild⟩⟩
  have hzero := afterBuild_ts_eq_empty.1 hempty
  exact ⟨treeField_of_empty hempty, totalOf_eq_zero hzero, nsymOf_eq_zero hzero⟩

/-- Settles O45: one extraction takes a node of least rank, and distinct symbols have distinct ranks. -/
theorem highestIsTheUniqueFirst : Obligations.HighestIsTheUniqueFirst := by
  intro q hne hq
  obtain ⟨x, r, h⟩ := exists_extractHighest hne
  exact ⟨x, r, h, (extractHighest_spec h).1, extractHighest_higher hq h,
    fun q' hperm => extractHighest_perm hq hperm h⟩

/-- Settles O47: the leaves are those of the counted symbols. -/
theorem leavesAreTheCountedSymbols : Obligations.LeavesAreTheCountedSymbols :=
  fun f => ⟨fun _ => mem_leavesOf, leavesOf_syms f ▸ countedSyms_nodup f⟩

/-- Settles O48: one round of the loop, and the exact sums that every round keeps. -/
theorem buildMergesTheTwoHighest : Obligations.BuildMergesTheTwoHighest :=
  ⟨fun _ => rfl, buildFrom_nil, buildFrom_singleton, fun _ _ _ _ _ => buildFrom_merge,
    fun _ _ h => (buildTree_inv h).1⟩

/-- Settles O50: the table's one leaf is its tree, and DEC under a leaf reads one bit. -/
theorem singleSymbolAlphabet : Obligations.SingleSymbolAlphabet := by
  intro s sym hrun hread hothers
  have htree := buildTree_of_single hread hothers
  have hts := (afterBuild_ts_eq_built (s := s)).2 htree
  refine ⟨afterBuild s, exec_build hrun, hts, ?_, code_leaf_eq_some.2 ⟨rfl, rfl⟩,
    fun hinit b rest hbits => ?_⟩
  · rw [statusWord_single]
    exact singleFlag_afterBuild.2 ⟨_, _, htree⟩
  · obtain ⟨-, hunread, -⟩ := brGet_unread Config.eosFill (s := afterBuild s) hbits
    exact ⟨_, execDecWith_of_leaf Config.eosFill hrun hts hinit, rfl, hunread⟩

/-- Settles O51: a code that begins another is the code of the same symbol. -/
theorem codesArePrefixFree : Obligations.CodesArePrefixFree :=
  fun _ _ => ⟨fun _ _ _ _ ha hb hne h => hne (sym_eq_of_code_prefix ha hb h), fun _ _ _ => codes_inj⟩

/-- Settles O52: a tree of any shape has one Node less than leaves, and is less deep than it has
leaves. -/
theorem sizeLawsOfBuiltTrees : Obligations.SizeLawsOfBuiltTrees := by
  intro f t h
  obtain ⟨-, -, hle⟩ := wf_iff.1 (buildTree_wf h)
  have hpos := leafSyms_length_pos t
  have hnodes := nodeCount_succ t
  have hdepth := depth_lt_leafSyms_length t
  refine ⟨hpos, hle, by omega, by omega, by omega, fun sym c hc => ?_, buildTree_count h, ?_⟩
  · have hlength := code_length_le hc
    exact ⟨List.length_pos_iff.2 (code_ne_nil hc), by omega⟩
  · rw [buildTree_count h, totalOf_toNat]
    exact entriesSum_le f

/-- Settles O54: TS, TOTAL and NSYM after BUILD are computed from the entries alone. -/
theorem buildDependsOnTheTableOnly : Obligations.BuildDependsOnTheTableOnly := by
  intro s s' t t' hrun hrun' hreads ht ht'
  obtain rfl : afterBuild s = t := Host.Outcome.next.inj ((exec_build hrun).symm.trans ht)
  obtain rfl : afterBuild s' = t' := Host.Outcome.next.inj ((exec_build hrun').symm.trans ht')
  exact ⟨congrArg treeStateOf (buildTree_congr hreads), totalOf_congr hreads, nsymOf_congr hreads⟩

/-- Settles O55: under a Node a code is a path, each step of which is in the count of one Node; a single
leaf has a code of one bit. -/
theorem encodedLengthIsTheNodeCountSum : Obligations.EncodedLengthIsTheNodeCountSum := by
  intro f t h
  cases t with
  | leaf sym count => exact ⟨fun htwo => absurd htwo (by simp), fun _ => encodedLength_of_leaf h⟩
  | node nsym count left right =>
    refine ⟨fun _ => encodedLength_of_node h, fun hone => ?_⟩
    have hnodes := nodeCount_succ (CodeTree.node nsym count left right)
    rw [hone, CodeTree.nodeCount] at hnodes
    omega

end

section
/-! SUPPORT. ENC case by case (43_encode_decode.md R180), and what a sequence of ENC commands writes
(R181). -/

namespace Sys2Proof

theorem decode_encode_enc (sym : Sym) : decode (encode (.enc sym)) = some (.enc sym) :=
  decode_wordOf (r := opcodeMap[6]) (opc := 0x30) (List.getElem_mem _) rfl
    (Laws.WellFormedWord.enc sym)

namespace Machine

/-- A tree of at most 256 leaves has at most 255 levels below its root (42_build.md R170). -/
theorem depth_le_of_wf {t : CodeTree} (h : t.wf = true) : t.depth ≤ 255 := by
  obtain ⟨-, -, hle⟩ := wf_iff.1 h
  have hlt := depth_lt_leafSyms_length t
  omega

/-! ### One ENC -/

section

variable {s : State} {sym : Sym} (h : s.mode = .run)
include h

theorem exec_enc_of_unbuilt (hts : s.ts = .none) :
    exec (.enc sym) s = .next (raiseError .treeUnbuilt (encode (.enc sym)) s) := by
  rw [exec, execEnc, inRun_run h, hts]

theorem exec_enc_of_empty (hts : s.ts = .empty) :
    exec (.enc sym) s = .next (raiseError .treeEmpty (encode (.enc sym)) s) := by
  rw [exec, execEnc, inRun_run h, hts]

theorem exec_enc_of_absent {t : CodeTree} (hts : s.ts = .built t) (hcode : t.code sym = none) :
    exec (.enc sym) s = .next (raiseError .symAbsent (encode (.enc sym)) s) := by
  simp only [exec, execEnc, inRun_run h, hts, hcode]

theorem exec_enc_of_code {t : CodeTree} {c : List Bit} (hts : s.ts = .built t)
    (hcode : t.code sym = some c) : exec (.enc sym) s = .next (bwPutAll c s) := by
  simp only [exec, execEnc, inRun_run h, hts, hcode]

end

/-! ### A sequence of commands -/

theorem execAll_cons_of_next {i : Instr} {s s' : State} (h : exec i s = .next s')
    (rest : List Instr) : execAll (i :: rest) s = execAll rest s' := by
  simp only [execAll, h]

theorem execAll_singleton {i : Instr} {s s' : State} (h : exec i s = .next s') :
    execAll [i] s = .next s' := execAll_cons_of_next h []

theorem execAll_append {xs ys : List Instr} {s t u : State} (hx : execAll xs s = .next t)
    (hy : execAll ys t = .next u) : execAll (xs ++ ys) s = .next u := by
  induction xs generalizing s with
  | nil =>
    obtain rfl : s = t := Host.Outcome.next.inj hx
    exact hy
  | cons i xs ih =>
    obtain ⟨s', hs'⟩ := exec_next i s
    rw [execAll_cons_of_next hs'] at hx
    rw [List.cons_append, execAll_cons_of_next hs', ih hx]

/-! ### A sequence of ENC commands (43_encode_decode.md R181) -/

theorem bwPutAll_append (c c' : List Bit) (s : State) :
    bwPutAll (c ++ c') s = bwPutAll c' (bwPutAll c s) := List.foldl_append

theorem bwPutAll_ts (c : List Bit) (s : State) : (bwPutAll c s).ts = s.ts := by
  obtain ⟨_, _, _, h⟩ := bwPutAll_frame c s
  rw [h]

theorem execAll_encs {s : State} {t : CodeTree} {syms : List Sym} {cs : List Bit}
    (h : s.mode = .run) (hts : s.ts = .built t) (hcodes : t.codes syms = some cs) :
    execAll (syms.map .enc) s = .next (bwPutAll cs s) := by
  induction syms generalizing s cs with
  | nil =>
    obtain rfl : [] = cs := Option.some.inj hcodes
    rfl
  | cons sym syms ih =>
    obtain ⟨c, cs, hcode, hrest, rfl⟩ := codes_cons_eq_some.1 hcodes
    rw [List.map_cons, execAll_cons_of_next (exec_enc_of_code h hts hcode), bwPutAll_append]
    exact ih ((bwPutAll_mode c s).trans h) ((bwPutAll_ts c s).trans hts) hrest

/-- From an empty writer, every eighth bit emits a byte. -/
theorem bwPutAll_bout_length {s : State} (h : s.bwCnt.val = 0) (hinv : writerInv s)
    (bits : List Bit) :
    (bwPutAll bits s).bout.length = s.bout.length + bits.length / 8 := by
  have hcnt := bwPutAll_bwCnt h hinv bits
  have hlength := congrArg List.length (writtenBits_bwPutAll hinv bits)
  rw [writtenBits_of_empty h] at hlength
  simp only [writtenBits, List.length_append, streamBits_length, pendingBits_length] at hlength
  omega

end Machine
end Sys2Proof
end

section
/-! SUPPORT. DEC case by case (43_encode_decode.md R182): its walk reads the bits that lead from the
root to a leaf, as many as there are levels down to it (R183). -/

namespace Sys2Proof.Machine

variable (fill : Nat → Byte)

/-! ### Where bits lead (42_build.md R168) -/

theorem descend_append (t : CodeTree) (p q : List Bit) :
    t.descend (p ++ q) = (t.descend p).bind (·.descend q) := by
  induction p generalizing t with
  | nil => simp [CodeTree.descend]
  | cons b p ih =>
    cases t with
    | leaf sym count => rfl
    | node sym count left right => cases b <;> exact ih _

theorem descend_leaf_eq_some {sym : Sym} {count : NodeCount} {bits : List Bit} {u : CodeTree} :
    (CodeTree.leaf sym count).descend bits = some u ↔ bits = [] ∧ .leaf sym count = u := by
  cases bits <;> simp [CodeTree.descend]

/-- A path leads to a leaf of its symbol. -/
theorem descend_of_path {t : CodeTree} {sym : Sym} {p : List Bit} (h : t.path sym = some p) :
    ∃ count, t.descend p = some (.leaf sym count) := by
  induction t generalizing p with
  | leaf sym' count =>
    obtain ⟨rfl, rfl⟩ := path_leaf_eq_some.1 h
    exact ⟨count, rfl⟩
  | node nsym count left right ihl ihr =>
    obtain ⟨p', ⟨hp, rfl⟩ | ⟨hp, rfl⟩⟩ := path_node_cases h
    · exact ihl hp
    · exact ihr hp

/-- Enough bits lead to a leaf, because every Node has two children (43_encode_decode.md R183). -/
theorem exists_descend_take {t : CodeTree} {bits : List Bit} (h : t.depth ≤ bits.length) :
    ∃ n sym count, n ≤ t.depth ∧ t.descend (bits.take n) = some (.leaf sym count) := by
  induction t generalizing bits with
  | leaf sym count => exact ⟨0, sym, count, Nat.zero_le _, rfl⟩
  | node nsym count left right ihl ihr =>
    rw [CodeTree.depth] at h ⊢
    cases bits with
    | nil => exact absurd h (Nat.not_succ_le_zero _)
    | cons b bits =>
      have hchildren := max_le_iff.1 (Nat.le_of_succ_le_succ h)
      cases b with
      | false =>
        obtain ⟨n, sym, c, hn, hleaf⟩ := ihl hchildren.1
        exact ⟨n + 1, sym, c, Nat.succ_le_succ (le_max_of_le_left hn), hleaf⟩
      | true =>
        obtain ⟨n, sym, c, hn, hleaf⟩ := ihr hchildren.2
        exact ⟨n + 1, sym, c, Nat.succ_le_succ (le_max_of_le_right hn), hleaf⟩

/-! ### The walk (43_encode_decode.md R182) -/

theorem walk_node (nsym : Sym) (count : NodeCount) (left right : CodeTree) (s : State) :
    walk fill (.node nsym count left right) s =
      walk fill (if (brGet fill s).1 then right else left) (brGet fill s).2 :=
  (apply_ite (walk fill · (brGet fill s).2) ((brGet fill s).1 = true) right left).symm

/-- The walk reads the bits that lead from its node to a leaf. -/
theorem walk_reads (t : CodeTree) (s : State) :
    ∃ n count, n ≤ t.depth ∧
      t.descend (readBits fill n s).1 = some (.leaf (walk fill t s).1 count) ∧
      (walk fill t s).2 = (readBits fill n s).2 := by
  induction t generalizing s with
  | leaf sym count => exact ⟨0, count, Nat.zero_le _, rfl, rfl⟩
  | node nsym count left right ihl ihr =>
    rw [walk_node, CodeTree.depth]
    cases hbit : (brGet fill s).1 with
    | false =>
      obtain ⟨n, c, hn, hleaf, hstate⟩ := ihl (brGet fill s).2
      refine ⟨n + 1, c, Nat.succ_le_succ (le_max_of_le_left hn), ?_, hstate⟩
      simpa [readBits, CodeTree.descend, hbit] using hleaf
    | true =>
      obtain ⟨n, c, hn, hleaf, hstate⟩ := ihr (brGet fill s).2
      refine ⟨n + 1, c, Nat.succ_le_succ (le_max_of_le_right hn), ?_, hstate⟩
      simpa [readBits, CodeTree.descend, hbit] using hleaf

/-- When the next bits lead to a leaf, the walk reads these and ends there. -/
theorem walk_of_descend {t : CodeTree} {s : State} {n : Nat} {sym : Sym} {count : NodeCount}
    (h : t.descend (readBits fill n s).1 = some (.leaf sym count)) :
    walk fill t s = (sym, (readBits fill n s).2) := by
  induction t generalizing s n with
  | leaf sym' count' =>
    obtain ⟨hbits, hleaf⟩ := descend_leaf_eq_some.1 h
    cases n with
    | zero => cases hleaf; rfl
    | succ n => exact absurd hbits (List.cons_ne_nil _ _)
  | node nsym count' left right ihl ihr =>
    cases n with
    | zero => cases h
    | succ n =>
      rw [walk_node]
      cases hbit : (brGet fill s).1 with
      | false => exact ihl (by simpa [readBits, CodeTree.descend, hbit] using h)
      | true => exact ihr (by simpa [readBits, CodeTree.descend, hbit] using h)

/-! ### The symbol DEC reads -/

theorem decodeSym_mem_leafSyms (t : CodeTree) (s : State) :
    (decodeSym fill t s).1 ∈ t.leafSyms := by
  cases t with
  | leaf sym count => exact List.mem_singleton_self sym
  | node nsym count left right => exact walk_mem_leafSyms fill _ s

theorem decodeSym_mode (t : CodeTree) (s : State) : (decodeSym fill t s).2.mode = s.mode := by
  obtain ⟨_, _, _, _, _, hframe⟩ := decodeSym_frame fill t s
  rw [hframe]

/-- DEC reads at least one bit, and more than one only on its way down the levels of the tree. -/
theorem decodeSym_reads (t : CodeTree) (s : State) :
    ∃ n, 1 ≤ n ∧ n ≤ max 1 t.depth ∧ (decodeSym fill t s).2 = (readBits fill n s).2 := by
  cases t with
  | leaf sym count => exact ⟨1, le_rfl, le_max_left _ _, rfl⟩
  | node nsym count left right =>
    obtain ⟨n, c, hn, hleaf, hstate⟩ := walk_reads fill (.node nsym count left right) s
    have hpos : n ≠ 0 := by
      rintro rfl
      cases hleaf
    exact ⟨n, Nat.one_le_iff_ne_zero.2 hpos, le_max_of_le_right hn, hstate⟩

theorem decodeSym_of_descend {t : CodeTree} {s : State} {n : Nat} {sym : Sym} {count : NodeCount}
    (h : t.descend (readBits fill n s).1 = some (.leaf sym count)) :
    (decodeSym fill t s).1 = sym := by
  cases t with
  | leaf sym' count' =>
    cases (descend_leaf_eq_some.1 h).2
    rfl
  | node nsym count' left right => exact congrArg Prod.fst (walk_of_descend fill h)

/-! ### DEC -/

theorem readBits_frame (n : Nat) (s : State) :
    ∃ buf cnt bin eos draws, (readBits fill n s).2 =
      { s with brBuf := buf, brCnt := cnt, bin := bin, eos := eos, draws := draws } := by
  induction n generalizing s with
  | zero => exact ⟨_, _, _, _, _, rfl⟩
  | succ n ih =>
    obtain ⟨buf, cnt, bin, eos, draws, hread⟩ := brGet_frame fill s
    obtain ⟨buf', cnt', bin', eos', draws', hreads⟩ := ih (brGet fill s).2
    exact ⟨buf', cnt', bin', eos', draws', hreads.trans (by rw [hread])⟩

section

variable {s : State} (h : s.mode = .run)
include h

theorem execDecWith_of_unbuilt (hts : s.ts = .none) :
    execDecWith fill s = .next (raiseError .treeUnbuilt (encode .dec) s) := by
  rw [execDecWith, inRun_run h, hts]

theorem execDecWith_of_empty (hts : s.ts = .empty) :
    execDecWith fill s = .next (raiseError .treeEmpty (encode .dec) s) := by
  rw [execDecWith, inRun_run h, hts]

theorem execDecWith_of_uninit {t : CodeTree} (hts : s.ts = .built t) (hinit : s.brInit = false) :
    execDecWith fill s = .next (raiseError .readerUninit (encode .dec) s) := by
  simp only [execDecWith, inRun_run h, hts, hinit, if_true]

theorem execDecWith_of_built {t : CodeTree} (hts : s.ts = .built t) (hinit : s.brInit = true) :
    execDecWith fill s = .next { (decodeSym fill t s).2 with
      res := (decodeSym fill t s).1.setWidth 32, sout := s.sout ++ [(decodeSym fill t s).1] } := by
  obtain ⟨_, _, _, _, _, hframe⟩ := decodeSym_frame fill t s
  simp [execDecWith, inRun_run h, hts, hinit, emitSym, zextSym32, hframe]

end

end Sys2Proof.Machine
end

section
/-! SUPPORT. Drawn bits (43_encode_decode.md R184): some source of draws supplies any bits to a reader
that has none unread. -/

namespace Sys2Proof.Machine

/-- The bits a reader can return with at most `m` draws: those unread, then those of the draws. -/
def supplyBits (fill : Nat → Byte) (m : Nat) (s : State) : List Bit :=
  unreadBits s ++ streamBits ((List.range' s.draws m).map fill)

/-- A draw gives the first bit of a byte and leaves its other bits unread. -/
theorem supplyBits_succ_of_drawn (fill : Nat → Byte) {s : State} (h : unreadBits s = []) (m : Nat) :
    supplyBits fill (m + 1) s = (brGet fill s).1 :: supplyBits fill m (brGet fill s).2 := by
  have hbin : streamBits s.bin = [] := (List.append_eq_nil_iff.1 h).2
  have hbyte : byteBits (fill s.draws) =
      (fill s.draws).getLsbD 7 :: (byteBits (fill s.draws)).drop 1 := rfl
  rw [brGet_drawn fill h, supplyBits, supplyBits, h, List.range'_succ, List.map_cons,
    streamBits_cons, hbyte]
  simp [unreadBits, hbin]

/-- One read takes the first bit supplied, with a draw or without. -/
theorem brGet_supplyBits (fill : Nat → Byte) {s : State} {m : Nat} {b : Bit} {bits : List Bit}
    (h : b :: bits <+: supplyBits fill m s) :
    (brGet fill s).1 = b ∧ ∃ m', bits <+: supplyBits fill m' (brGet fill s).2 := by
  cases hunread : unreadBits s with
  | cons b' rest =>
    obtain ⟨hbit, hrest, _, _, _, hframe⟩ := brGet_unread fill hunread
    have hdraws : (brGet fill s).2.draws = s.draws := by rw [hframe]
    rw [supplyBits, hunread, List.cons_append, List.cons_prefix_cons] at h
    obtain ⟨rfl, hbits⟩ := h
    exact ⟨hbit, m, by rwa [supplyBits, hrest, hdraws]⟩
  | nil =>
    cases m with
    | zero => simp [supplyBits, hunread] at h
    | succ m =>
      rw [supplyBits_succ_of_drawn fill hunread, List.cons_prefix_cons] at h
      exact ⟨h.1.symm, m, h.2⟩

/-- The bits supplied are the bits read. -/
theorem readBits_of_supplyBits (fill : Nat → Byte) {s : State} {m : Nat} {bits : List Bit}
    (h : bits <+: supplyBits fill m s) : (readBits fill bits.length s).1 = bits := by
  induction bits generalizing s m with
  | nil => rfl
  | cons b bits ih =>
    obtain ⟨hbit, m', hbits⟩ := brGet_supplyBits fill h
    exact congrArg₂ List.cons hbit (ih hbits)

/-- Any bits begin the stream of some bytes: those that the writer packs them into. -/
theorem exists_streamBits_prefix (bits : List Bit) : ∃ bytes, bits <+: streamBits bytes := by
  obtain ⟨bytes, hout⟩ := bwFlush_bwPutAll_bout bits State.reset
  have hbytes := streamBits_packed rfl (by intro i _; simp [State.reset]) hout
  exact ⟨bytes, hbytes ▸ List.prefix_append _ _⟩

/-- The source that draws the given bytes, counted from `start`. -/
def drawBytes (bytes : List Byte) (start n : Nat) : Byte := bytes.getD (n - start) 0

theorem map_drawBytes (bytes : List Byte) (start : Nat) :
    (List.range' start bytes.length).map (drawBytes bytes start) = bytes := by
  apply List.ext_getElem
  · simp
  · intro i _ h
    simp [drawBytes, h]

/-- The later bits can be drawn as any bits (43_encode_decode.md R184). -/
theorem exists_readBits_eq (s : State) (bits : List Bit) :
    ∃ fill, (readBits fill (unreadBits s ++ bits).length s).1 = unreadBits s ++ bits := by
  obtain ⟨bytes, hbytes⟩ := exists_streamBits_prefix bits
  refine ⟨drawBytes bytes s.draws, readBits_of_supplyBits (m := bytes.length) _ ?_⟩
  rw [supplyBits, map_drawBytes]
  exact (List.prefix_append_right_inj _).2 hbytes

end Sys2Proof.Machine
end

section
/-! The statements about the encoder and the decoder (43_encode_decode.md), settled from the lemmas
above. -/

open Sys2Proof Sys2Proof.Machine

/-- Settles O26: the checks precede the bits, and the bits are `BW_put` one after the other. -/
theorem encWritesTheCodeOfItsSymbol : Obligations.EncWritesTheCodeOfItsSymbol := by
  intro sym
  have hword : encode (.enc sym) = 0x30#8 ++ sym ++ 0x000000000000#48 := wordOf_sym 0x30 sym
  rw [← hword]
  refine ⟨decode_encode_enc sym, fun s hrun => ⟨exec_enc_of_unbuilt hrun, exec_enc_of_empty hrun,
    fun t => exec_enc_of_absent hrun, fun t c hts hcode hinv => ?_⟩⟩
  obtain ⟨buf, cnt, emitted, hput⟩ := bwPutAll_frame c s
  refine ⟨buf, cnt, emitted, ?_⟩
  rw [← hput]
  exact ⟨exec_enc_of_code hrun hts hcode, writerInv_bwPutAll hinv c, writtenBits_bwPutAll hinv c⟩

/-- Settles O27: a sequence of ENC is the `BW_put` of all its bits. -/
theorem encSequenceWritesTheConcatenation : Obligations.EncSequenceWritesTheConcatenation := by
  refine ⟨fun t sym c hwf hcode => ?_, fun s t syms cs hrun hts hcodes hinv => ?_⟩
  · have hdepth := depth_le_of_wf hwf
    have hlength := code_length_le hcode
    exact ⟨List.length_pos_iff.2 (code_ne_nil hcode), by omega⟩
  · refine ⟨_, execAll_encs hrun hts hcodes, writtenBits_bwPutAll hinv cs, fun hcnt => ?_⟩
    have hempty := congrArg Fin.val hcnt
    exact ⟨bwPutAll_bout_length hempty hinv cs, bwPutAll_bwCnt hempty hinv cs⟩

/-- Settles O28: the walk reads the bits that lead to its leaf. -/
theorem decReturnsTheLeafItsBitsSelect : Obligations.DecReturnsTheLeafItsBitsSelect := by
  refine ⟨rfl, fun fill s hrun => ⟨execDecWith_of_unbuilt fill hrun, execDecWith_of_empty fill hrun,
    fun t => execDecWith_of_uninit fill hrun, fun sym count => execDecWith_of_built fill hrun,
    fun nsym ncount left right hts hinit => ?_, fun _ n => readBits_frame fill n s,
    fun t hts hinit => ?_, rfl⟩⟩
  · obtain ⟨n, count, -, hleaf, hstate⟩ := walk_reads fill (.node nsym ncount left right) s
    refine ⟨n, _, count, hleaf, ?_⟩
    rw [← hstate]
    exact execDecWith_of_built fill hrun hts hinit
  · obtain ⟨n, -, -, hstate⟩ := decodeSym_reads Config.eosFill t s
    refine ⟨n, _, decodeSym_mem_leafSyms Config.eosFill t s, ?_⟩
    rw [← hstate]
    exact execDecWith_of_built Config.eosFill hrun hts hinit

/-- Settles O29: each read of the walk goes one level down. -/
theorem decReadsAtMostDepthBits : Obligations.DecReadsAtMostDepthBits := by
  refine ⟨fun fill s t hrun hts hinit => ?_, fun t bits hwf hbits => ?_⟩
  · obtain ⟨n, hpos, hle, hstate⟩ := decodeSym_reads fill t s
    refine ⟨n, _, execDecWith_of_built fill hrun hts hinit, hpos, hle, fun hdepth => by omega, ?_⟩
    rw [hstate]
  · have hdepth := depth_le_of_wf hwf
    obtain ⟨n, sym, count, hn, hleaf⟩ := exists_descend_take (hbits ▸ hdepth)
    exact ⟨n, sym, count, hn.trans hdepth, hleaf⟩

/-- Settles O30: the drawn bits can be the path from the node that the unread bits reach to any leaf
below it. -/
theorem everyLeafBelowADrawnNodeIsPossible : Obligations.EveryLeafBelowADrawnNodeIsPossible := by
  refine ⟨fun fill s t hrun hts hinit => ?_, fun s t below sym hrun hts hinit hbelow hsym => ?_⟩
  · exact ⟨_, _, decodeSym_mem_leafSyms fill t s, execDecWith_of_built fill hrun hts hinit,
      (decodeSym_mode fill t s).trans hrun, rfl, rfl⟩
  · obtain ⟨p, hp⟩ := exists_path hsym
    obtain ⟨count, hleaf⟩ := descend_of_path hp
    obtain ⟨fill, hbits⟩ := exists_readBits_eq s p
    have hdescend : t.descend (unreadBits s ++ p) = some (.leaf sym count) := by
      rw [descend_append, hbelow]
      exact hleaf
    obtain rfl := decodeSym_of_descend fill (hbits.symm ▸ hdescend)
    exact ⟨fill, _, execDecWith_of_built fill hrun hts hinit,
      (decodeSym_mode fill t s).trans hrun, rfl, rfl⟩

end

section
/-! SUPPORT. The round trip (43_encode_decode.md R185): both sequences leave the counts of the text in
the table and so build the same tree, and DEC reads back the codes that ENC wrote. -/

namespace Sys2Proof.Machine

/-! ### The table of a text -/

/-- The table holds the number of occurrences of each symbol. -/
def HoldsCounts (text : List Sym) (f : Memory) : Prop :=
  ∀ sym, (f.read (ftIndex sym)).toNat = occurrences text sym

theorem HoldsCounts.ne_zero {text : List Sym} {f : Memory} (h : HoldsCounts text f) {sym : Sym}
    (hsym : sym ∈ text) : f.read (ftIndex sym) ≠ 0 := by
  intro hzero
  have hcount : 0 < occurrences text sym := List.count_pos_iff.2 hsym
  rw [← h sym, hzero] at hcount
  exact absurd hcount (by decide)

/-- Two tables that hold the counts of one text have the same entries. -/
theorem HoldsCounts.read_eq {text : List Sym} {f g : Memory} (hf : HoldsCounts text f)
    (hg : HoldsCounts text g) (sym : Sym) : f.read (ftIndex sym) = g.read (ftIndex sym) :=
  BitVec.eq_of_toNat_eq ((hf sym).trans (hg sym).symm)

/-- The occurrences of all symbols add up to the length of the text. -/
theorem sum_map_count_eq_length {l text : List Sym} (hl : l.Nodup) (hmem : ∀ sym ∈ text, sym ∈ l) :
    (l.map (text.count ·)).sum = text.length := by
  rw [← List.sum_toFinset _ hl]
  have hcard := Multiset.sum_count_eq_card (m := (text : Multiset Sym)) fun sym hsym =>
    List.mem_toFinset.2 (hmem sym hsym)
  simpa only [Multiset.coe_count, Multiset.coe_card] using hcard

/-- TOTAL is the length of the text. -/
theorem HoldsCounts.totalOf_toNat {text : List Sym} {f : Memory} (h : HoldsCounts text f) :
    (totalOf f).toNat = text.length := by
  have hcounts : entriesSum f = (symbols.map (text.count ·)).sum :=
    congrArg List.sum (List.map_congr_left fun sym _ => h sym)
  rw [Machine.totalOf_toNat, hcounts]
  exact sum_map_count_eq_length symbols_nodup fun sym _ => mem_symbols sym

theorem exists_code {t : CodeTree} {sym : Sym} (h : sym ∈ t.leafSyms) : ∃ c, t.code sym = some c := by
  cases t with
  | leaf sym' count => exact ⟨_, code_leaf_eq_some.2 ⟨(List.mem_singleton.1 h).symm, rfl⟩⟩
  | node nsym count left right => exact exists_path h

theorem exists_codes_of_mem {t : CodeTree} {text : List Sym} (h : ∀ sym ∈ text, sym ∈ t.leafSyms) :
    ∃ cs, t.codes text = some cs := by
  induction text with
  | nil => exact ⟨[], rfl⟩
  | cons sym text ih =>
    obtain ⟨hsym, htext⟩ := List.forall_mem_cons.1 h
    obtain ⟨c, hc⟩ := exists_code hsym
    obtain ⟨cs, hcs⟩ := ih htext
    exact ⟨c ++ cs, codes_cons_eq_some.2 ⟨c, cs, hc, hcs, rfl⟩⟩

/-- A nonempty text has a tree, and every symbol of the text a code. -/
theorem HoldsCounts.exists_tree {text : List Sym} {f : Memory} (h : HoldsCounts text f)
    (hne : text ≠ []) : ∃ t cs, buildTree f = some t ∧ t.codes text = some cs := by
  obtain ⟨sym, hsym⟩ := List.exists_mem_of_ne_nil text hne
  obtain ⟨t, ht⟩ := Option.ne_none_iff_exists'.1 fun hnone =>
    h.ne_zero hsym (buildTree_eq_none.1 hnone sym)
  have hleaf : ∀ sym ∈ text, sym ∈ t.leafSyms := fun sym hsym =>
    (buildTree_leafSyms_perm ht).mem_iff.2 (mem_countedSyms.2 (h.ne_zero hsym))
  obtain ⟨cs, hcs⟩ := exists_codes_of_mem hleaf
  exact ⟨t, cs, ht, hcs⟩

/-! ### The tables of the two sequences (41_frequency.md R141, R142) -/

/-- The table after one more occurrence of a symbol. -/
def countOne (f : Memory) (sym : Sym) : Memory := f.write (ftIndex sym) (f.read (ftIndex sym) + 1)

theorem read_countOne {f : Memory} {a : Sym} (h : f.read (ftIndex a) ≠ Config.countMax) (sym : Sym) :
    ((countOne f a).read (ftIndex sym)).toNat =
      (f.read (ftIndex sym)).toNat + if a == sym then 1 else 0 := by
  by_cases hsym : a = sym
  · subst hsym
    rw [countOne, Memory.read_write_same, count_succ_toNat h, beq_self_eq_true, if_pos rfl]
  · rw [countOne, Memory.read_write_other _ _ (mt ftIndex_inj.1 (Ne.symm hsym)), beq_false_of_ne hsym]
    rfl

/-- FINC of each symbol of a text adds its occurrences, if no count passes the maximum. -/
theorem execAll_fincs {s : State} (h : s.mode = .run) {text : List Sym}
    (hfit : ∀ sym, (s.ft.read (ftIndex sym)).toNat + text.count sym ≤ 2 ^ 32 - 1) :
    ∃ ft, execAll (text.map .finc) s = .next { s with ft := ft } ∧
      ∀ sym, (ft.read (ftIndex sym)).toNat = (s.ft.read (ftIndex sym)).toNat + text.count sym := by
  induction text generalizing s with
  | nil => exact ⟨s.ft, rfl, fun _ => rfl⟩
  | cons a text ih =>
    have hmax : s.ft.read (ftIndex a) ≠ Config.countMax := by
      intro hmax
      have ha := hfit a
      have hmaxNat : Config.countMax.toNat = 2 ^ 32 - 1 := rfl
      rw [hmax, hmaxNat, List.count_cons_self] at ha
      omega
    have hstep (sym : Sym) : ((countOne s.ft a).read (ftIndex sym)).toNat + text.count sym =
        (s.ft.read (ftIndex sym)).toNat + (a :: text).count sym := by
      rw [read_countOne hmax, List.count_cons]
      omega
    obtain ⟨ft, hexec, hcounts⟩ := ih (s := { s with ft := countOne s.ft a }) h
      fun sym => (hstep sym).le.trans (hfit sym)
    refine ⟨ft, ?_, fun sym => (hcounts sym).trans (hstep sym)⟩
    rw [List.map_cons, execAll_cons_of_next (exec_finc_of_ne_max h hmax)]
    exact hexec

/-- FWR of each symbol of a list writes its entry, and no other. -/
theorem execAll_fwrs {s : State} (h : s.mode = .run) (syms : List Sym) (entry : Sym → Count) :
    ∃ ft, execAll (syms.map fun sym => .fwr sym (entry sym)) s = .next { s with ft := ft } ∧
      ∀ sym, ft.read (ftIndex sym) = if sym ∈ syms then entry sym else s.ft.read (ftIndex sym) := by
  induction syms generalizing s with
  | nil => exact ⟨s.ft, rfl, fun _ => rfl⟩
  | cons a syms ih =>
    obtain ⟨ft, hexec, hreads⟩ := ih (s := { s with ft := s.ft.write (ftIndex a) (entry a) }) h
    refine ⟨ft, ?_, fun sym => (hreads sym).trans ?_⟩
    · rw [List.map_cons, execAll_cons_of_next (exec_fwr h a (entry a))]
      exact hexec
    · by_cases hsym : sym = a
      · subst hsym
        simp
      · simp [hsym, Memory.read_write_other _ _ (mt ftIndex_inj.1 hsym)]

section

variable {s : State} (h : s.mode = .run) {text : List Sym}
  (hfit : ∀ sym, occurrences text sym ≤ 2 ^ 32 - 1)
include h hfit

/-- The counting part of the compression sequence. -/
theorem execAll_fclr_fincs : ∃ ft, HoldsCounts text ft ∧
    execAll (.fclr :: text.map .finc) s = .next { s with ft := ft } := by
  obtain ⟨ft, hexec, hcounts⟩ := execAll_fincs (s := { s with ft := s.ft.clear }) h (text := text)
    fun sym => (Nat.zero_add _).le.trans (hfit sym)
  exact ⟨ft, fun sym => (hcounts sym).trans (Nat.zero_add _),
    (execAll_cons_of_next (exec_fclr h) _).trans hexec⟩

/-- The loading part of the decompression sequence. -/
theorem execAll_fclr_loadCounts : ∃ ft, HoldsCounts text ft ∧
    execAll (.fclr :: loadCounts text) s = .next { s with ft := ft } := by
  obtain ⟨ft, hexec, hreads⟩ := execAll_fwrs (s := { s with ft := s.ft.clear }) h
    (symbols.filter fun sym => 0 < occurrences text sym)
    fun sym => BitVec.ofNat 32 (occurrences text sym)
  refine ⟨ft, fun sym => ?_, (execAll_cons_of_next (exec_fclr h) _).trans hexec⟩
  have hlt := hfit sym
  simp only [hreads sym, List.mem_filter, mem_symbols, true_and, decide_eq_true_eq]
  split
  · rw [BitVec.toNat_ofNat, Nat.mod_eq_of_lt (by omega)]
  · next hzero => exact (Nat.eq_zero_of_not_pos hzero).symm

end

/-! ### DEC of what ENC wrote -/

/-- Reads that have unread bits change the buffer and BIN only. -/
theorem readBits_unread_frame (fill : Nat → Byte) {s : State} {bits rest : List Bit}
    (h : unreadBits s = bits ++ rest) :
    ∃ buf cnt bin, (readBits fill bits.length s).2 =
      { s with brBuf := buf, brCnt := cnt, bin := bin } := by
  induction bits generalizing s with
  | nil => exact ⟨_, _, _, rfl⟩
  | cons b bits ih =>
    obtain ⟨-, hunread, _, _, _, hread⟩ := brGet_unread fill h
    obtain ⟨buf, cnt, bin, hreads⟩ := ih hunread
    exact ⟨buf, cnt, bin, hreads.trans (by rw [hread])⟩

/-- DEC of a code reads the code and returns its symbol (42_build.md R169). -/
theorem decodeSym_of_code (fill : Nat → Byte) {t : CodeTree} {s : State} {sym : Sym}
    {c rest : List Bit} (hcode : t.code sym = some c) (h : unreadBits s = c ++ rest) :
    decodeSym fill t s = (sym, (readBits fill c.length s).2) := by
  cases t with
  | leaf sym' count =>
    obtain ⟨rfl, rfl⟩ := code_leaf_eq_some.1 hcode
    rfl
  | node nsym count left right =>
    obtain ⟨count', hleaf⟩ := descend_of_path hcode
    obtain ⟨hbits, -, -⟩ := readBits_unread fill h
    exact walk_of_descend fill (hbits.symm ▸ hleaf)

theorem exec_dec_of_code {t : CodeTree} {s : State} {sym : Sym} {c rest : List Bit}
    (h : s.mode = .run) (hts : s.ts = .built t) (hinit : s.brInit = true)
    (hcode : t.code sym = some c) (hunread : unreadBits s = c ++ rest) :
    ∃ buf cnt bin res, exec .dec s = .next { s with
        brBuf := buf, brCnt := cnt, bin := bin, res := res, sout := s.sout ++ [sym] } ∧
      (byteBits buf).drop cnt.val ++ streamBits bin = rest := by
  have hdec := execDecWith_of_built Config.eosFill h hts hinit
  obtain ⟨-, hrest, -⟩ := readBits_unread Config.eosFill hunread
  obtain ⟨buf, cnt, bin, hframe⟩ := readBits_unread_frame Config.eosFill hunread
  rw [decodeSym_of_code Config.eosFill hcode hunread, hframe] at hdec
  rw [hframe] at hrest
  exact ⟨buf, cnt, bin, _, hdec, hrest⟩

/-- As many DEC as a text has symbols return the text, when its codes are unread, and draw nothing. -/
theorem execAll_decs {t : CodeTree} {s : State} {text : List Sym} {cs rest : List Bit}
    (h : s.mode = .run) (hts : s.ts = .built t) (hinit : s.brInit = true)
    (hcodes : t.codes text = some cs) (hunread : unreadBits s = cs ++ rest) :
    ∃ e, execAll (List.replicate text.length .dec) s = .next e ∧ e.sout = s.sout ++ text ∧
      e.eos = s.eos ∧ e.draws = s.draws := by
  induction text generalizing s cs with
  | nil => exact ⟨s, rfl, (List.append_nil _).symm, rfl, rfl⟩
  | cons sym text ih =>
    obtain ⟨c, cs', hcode, hcodes', rfl⟩ := codes_cons_eq_some.1 hcodes
    rw [List.append_assoc] at hunread
    obtain ⟨buf, cnt, bin, res, hdec, hrest⟩ := exec_dec_of_code h hts hinit hcode hunread
    obtain ⟨e, hexec, hsout, heos, hdraws⟩ := ih (s := { s with
      brBuf := buf, brCnt := cnt, bin := bin, res := res, sout := s.sout ++ [sym] })
      h hts hinit hcodes' hrest
    refine ⟨e, (execAll_cons_of_next hdec _).trans hexec, ?_, heos, hdraws⟩
    rw [hsout, List.append_assoc, List.singleton_append]

/-! ### The two sequences (43_encode_decode.md R185) -/

/-- The compression sequence ends with the codes of its text written and flushed. -/
theorem execAll_compressSeq {s : State} {text : List Sym} {ft : Memory} {t : CodeTree} {cs : List Bit}
    (h : s.mode = .run) (hcount : execAll (.fclr :: text.map .finc) s = .next { s with ft := ft })
    (ht : buildTree ft = some t) (hcs : t.codes text = some cs) :
    execAll (compressSeq text) s =
      .next (bwFlush (bwPutAll cs (afterBuild { s with ft := ft }))) := by
  have hbuild := execAll_singleton (exec_build (s := { s with ft := ft }) h)
  have hencs := execAll_encs (s := afterBuild { s with ft := ft }) h (afterBuild_ts_eq_built.2 ht) hcs
  have hflush := execAll_singleton
    (exec_wflush ((bwPutAll_mode cs (afterBuild { s with ft := ft })).trans h))
  exact execAll_append (execAll_append (execAll_append hcount hbuild) hencs) hflush

/-- `BW_put` and `BW_flush` leave TOTAL alone. -/
theorem bwFlush_bwPutAll_total (bits : List Bit) (s : State) :
    (bwFlush (bwPutAll bits s)).total = s.total := by
  obtain ⟨_, _, _, hput⟩ := bwPutAll_frame bits s
  obtain ⟨_, hflush⟩ := bwFlush_frame (bwPutAll bits s)
  rw [hflush, hput]

/-- The decompression sequence returns the text whose codes BIN begins with, and draws nothing. -/
theorem execAll_decompressSeq {d : State} {text : List Sym} {ft : Memory} {t : CodeTree}
    {cs rest : List Bit} (h : d.mode = .run) (hne : text ≠ [])
    (hload : execAll (.fclr :: loadCounts text) d = .next { d with ft := ft })
    (ht : buildTree ft = some t) (hcs : t.codes text = some cs)
    (hbin : streamBits d.bin = cs ++ rest) :
    ∃ e, execAll (decompressSeq text) d = .next e ∧ e.sout = d.sout ++ text ∧
      e.eos = d.eos ∧ e.draws = d.draws := by
  have hbytes : d.bin ≠ [] := by
    intro hnil
    rw [hnil, streamBits_nil, List.nil_eq, List.append_eq_nil_iff] at hbin
    exact hne (codes_eq_some_nil (hbin.1 ▸ hcs))
  obtain ⟨byte, bytes, hcons⟩ := List.exists_cons_of_ne_nil hbytes
  have hbuild := execAll_singleton (exec_build (s := { d with ft := ft }) h)
  have hrinit := execAll_singleton (i := .rinit)
    (execRinitWith_of_byte Config.eosFill (s := afterBuild { d with ft := ft }) h hcons)
  obtain ⟨e, hdecs, hout⟩ := execAll_decs (s := { afterBuild { d with ft := ft } with
      bin := bytes, brBuf := byte, brCnt := 0, brInit := true }) (rest := rest) h
    (afterBuild_ts_eq_built.2 ht) rfl hcs (by rw [← hbin, hcons]; rfl)
  exact ⟨e, execAll_append (execAll_append hload (execAll_append hbuild hrinit)) hdecs, hout⟩

end Sys2Proof.Machine
end

section
/-! The statement about the round trip (43_encode_decode.md R185), settled from the lemmas above. -/

open Sys2Proof Sys2Proof.Machine

/-- Settles O58: both sequences build the tree of the text's counts, and the bits emitted are the codes
of the text, padded. -/
theorem roundTrip : Obligations.RoundTrip := by
  intro text s hne hfit hrun hcnt hinv
  obtain ⟨ft, hft, hcount⟩ := execAll_fclr_fincs hrun hfit
  obtain ⟨t, cs, ht, hcs⟩ := hft.exists_tree hne
  have hempty : (afterBuild { s with ft := ft }).bwCnt.val = 0 := congrArg Fin.val hcnt
  obtain ⟨packed, hout⟩ := bwFlush_bwPutAll_bout cs (afterBuild { s with ft := ft })
  have hpacked := streamBits_packed hempty hinv hout
  refine ⟨_, packed, execAll_compressSeq hrun hcount ht hcs, hout, ?_, fun d hd hbin => ?_⟩
  · rw [bwFlush_bwPutAll_total]
    exact hft.totalOf_toNat
  · obtain ⟨ft', hft', hload⟩ := execAll_fclr_loadCounts hd hfit
    have ht' : buildTree ft' = some t := (buildTree_congr (hft'.read_eq hft)).trans ht
    exact execAll_decompressSeq hd hne hload ht' hcs (hbin ▸ hpacked)

end

section
/-! SUPPORT. What FAULTED mode does with a command and with a presented word (60_exceptions.md R215), and
NOP in either mode (44_system.md R200). -/

namespace Sys2Proof.Machine

theorem exec_of_faulted {s : State} (hmode : s.mode = .faulted) (i : Instr) : exec i s = .next s := by
  obtain ⟨effect, heffect⟩ := exec_gated i
  exact (heffect s).trans (inRun_faulted hmode effect)

/-- In FAULTED mode a word, a command or illegal, is accepted and discarded (60_exceptions.md R215). -/
theorem step_of_faulted {s : State} {w : Word} (hmode : s.mode = .faulted) (hcmd : s.cmd = some w) :
    step s = .next (acceptWord s) := by
  rw [step_of_cmd hcmd, coreStep]
  cases decode w with
  | some i => exact exec_of_faulted (s := acceptWord s) hmode i
  | none => exact inRun_faulted (s := acceptWord s) hmode _

theorem exec_nop (s : State) : exec .nop s = .next s := by
  cases hmode : s.mode with
  | run => exact inRun_run hmode id
  | faulted => exact exec_of_faulted hmode .nop

end Sys2Proof.Machine
end

section
/-! The statements about NOP and the illegal words (44_system.md), settled from the lemmas above. -/

open Sys2Proof Sys2Proof.Machine

/-- Settles O10: error entry in RUN mode, and nothing but the acceptance of the word in FAULTED mode. -/
theorem illegalWordRaisesIllegalCmd : Obligations.IllegalWordRaisesIllegalCmd :=
  fun _ _ hcmd hw =>
    ⟨fun hrun => step_of_illegal hrun hcmd hw, fun hfaulted => step_of_faulted hfaulted hcmd⟩

/-- Settles O20: NOP has no effect behind the gate, and no field of its word may differ from 0. -/
theorem nopChangesNothing : Obligations.NopChangesNothing :=
  ⟨rfl, (decode_eq_none_iff_wordWF 1).2 rfl, exec_nop⟩

end

section
/-! SUPPORT. A legal word is the assembled word of its command (30_encoding.md R93, R97): the fields
that the command does not carry are zero in it. -/

namespace Sys2Proof

/-- The command of a row carries the fields its opcode uses, and the other fields are zero in its
assembled word (30_encoding.md R94, R100). -/
theorem encode_command {r : Row} (hr : r ∈ opcodeMap) :
    ∃ u, usesOf r.opc = some u ∧ ∀ sym b imm, encode (r.command sym b imm) =
      wordOf r.opc (bif u.sym then sym else 0) (u.b && b) (bif u.imm then imm else 0) := by
  fin_cases hr <;> exact ⟨_, rfl, fun _ _ _ => rfl⟩

theorem encode_of_decode {w : Word} {i : Instr} (h : decode w = some i) : encode i = w := by
  obtain ⟨r, hr, haccepts, rfl⟩ := (decode_eq_some_iff_row w i).1 h
  obtain ⟨hopc, hwf⟩ := (accepts_iff_of_mem hr w).1 haccepts
  obtain ⟨u, hu, hencode⟩ := encode_command hr
  obtain ⟨u', hu', hrsv, hsym, hb, himm⟩ := (wordWF_iff w).1 hwf
  obtain rfl : u' = u := Option.some.inj (hu'.symm.trans (hopc ▸ hu))
  rw [hencode, word_ext_iff]
  refine ⟨by simp [hopc], ?_, by simp [hrsv], ?_, ?_⟩
  · rcases hsym with hused | hzero <;> simp [*]
  · rcases hb with hused | hzero <;> simp [*]
  · rcases himm with hused | hzero <;> simp [*]

end Sys2Proof
end

section
/-! SUPPORT. Error entry (60_exceptions.md R212, R217): a word in RUN mode raises the first cause in
order, or leaves the error record as it is; and the steps that can change MODE at all (R215, R216). -/

namespace Sys2Proof.Machine

/-! ### A command in RUN mode (60_exceptions.md R217) -/

/-- The outcome is error entry with the cause given; without one it leaves MODE, ERRC and ERRCMD. -/
def RecordsCause (cause : Option Cause) (w : Word) (s : State) (o : Outcome) : Prop :=
  match cause with
  | some c => o = .next (raiseError c w s)
  | none => ∃ t, o = .next t ∧ SameRecord s t

theorem recordsCause_of_eq_none {cause : Option Cause} {w : Word} {s t : State} {o : Outcome}
    (hcause : cause = none) (hnext : o = .next t) (hsame : SameRecord s t) :
    RecordsCause cause w s o := hcause ▸ ⟨t, hnext, hsame⟩

theorem WritesOnly.record {i : Instr} {s t : State} (h : WritesOnly i s t) : SameRecord s t :=
  let ⟨_, hrecord, _⟩ := h.frame; hrecord

section

variable {s : State} {w : Word} (hrun : s.mode = .run)
include hrun

theorem finc_recordsCause {sym : Sym} (hw : decode w = some (.finc sym)) :
    RecordsCause (causeOf w s) (encode (.finc sym)) s (exec (.finc sym) s) := by
  simp only [causeOf, hw]
  split
  case isTrue hmax => exact exec_finc_of_max hrun hmax
  case isFalse hbelow =>
    exact recordsCause_of_eq_none rfl (exec_finc_of_ne_max hrun hbelow) ⟨rfl, rfl, rfl⟩

theorem enc_recordsCause {sym : Sym} (hw : decode w = some (.enc sym)) :
    RecordsCause (causeOf w s) (encode (.enc sym)) s (exec (.enc sym) s) := by
  simp only [causeOf, hw]
  cases hts : s.ts with
  | none => exact exec_enc_of_unbuilt hrun hts
  | empty => exact exec_enc_of_empty hrun hts
  | built tree =>
    dsimp only
    cases hcode : tree.code sym with
    | none => exact exec_enc_of_absent hrun hts hcode
    | some code =>
      exact recordsCause_of_eq_none rfl (exec_enc_of_code hrun hts hcode)
        (WritesOnly.record (i := .enc sym) (bwPutAll_frame code s))

theorem rbit_recordsCause (hw : decode w = some .rbit) :
    RecordsCause (causeOf w s) (encode .rbit) s (exec .rbit s) := by
  simp only [causeOf, hw]
  cases hinit : s.brInit with
  | false => exact execRbitWith_uninit _ hrun hinit
  | true =>
    obtain ⟨_, _, _, _, _, hread⟩ := brGet_frame Config.eosFill s
    exact recordsCause_of_eq_none rfl (execRbitWith_init _ hrun hinit) (by simp [SameRecord, hread])

theorem dec_recordsCause (hw : decode w = some .dec) :
    RecordsCause (causeOf w s) (encode .dec) s (exec .dec s) := by
  simp only [causeOf, hw]
  cases hts : s.ts with
  | none => exact execDecWith_of_unbuilt _ hrun hts
  | empty => exact execDecWith_of_empty _ hrun hts
  | built tree =>
    cases hinit : s.brInit with
    | false => exact execDecWith_of_uninit _ hrun hts hinit
    | true =>
      obtain ⟨_, _, _, _, _, hread⟩ := decodeSym_frame Config.eosFill tree s
      exact recordsCause_of_eq_none rfl (execDecWith_of_built _ hrun hts hinit)
        (by simp [SameRecord, hread])

/-- A command in RUN mode raises the first of its own causes, with its word. -/
theorem exec_recordsCause {i : Instr} (hw : decode w = some i) :
    RecordsCause (causeOf w s) w s (exec i s) := by
  obtain rfl := encode_of_decode hw
  have unchecked {t : State} (hcause : causeOf (encode i) s = none) (hnext : exec i s = .next t)
      (hwrites : WritesOnly i s t) :=
    recordsCause_of_eq_none (w := encode i) hcause hnext hwrites.record
  cases i with
  | finc sym => exact finc_recordsCause hrun hw
  | enc sym => exact enc_recordsCause hrun hw
  | rbit => exact rbit_recordsCause hrun hw
  | dec => exact dec_recordsCause hrun hw
  | nop => exact unchecked (by simp only [causeOf, hw]) (exec_nop s) rfl
  | fclr => exact unchecked (by simp only [causeOf, hw]) (exec_fclr hrun) ⟨_, rfl⟩
  | fwr sym imm => exact unchecked (by simp only [causeOf, hw]) (exec_fwr hrun sym imm) ⟨_, rfl⟩
  | frd sym => exact unchecked (by simp only [causeOf, hw]) (exec_frd hrun sym) ⟨_, rfl⟩
  | build => exact unchecked (by simp only [causeOf, hw]) (exec_build hrun) ⟨_, _, _, rfl⟩
  | wbit b => exact unchecked (by simp only [causeOf, hw]) (inRun_run hrun _) (bwPut_frame b s)
  | wflush =>
    obtain ⟨_, hflush⟩ := bwFlush_frame s
    exact unchecked (by simp only [causeOf, hw]) (inRun_run hrun _) ⟨_, _, _, hflush⟩
  | rinit =>
    obtain ⟨_, _, _, _, hfill⟩ := brFill_frame Config.eosFill s
    exact unchecked (by simp only [causeOf, hw]) (execRinitWith_run _ hrun)
      ⟨_, _, _, _, _, _, by rw [hfill]⟩

/-! ### A word in RUN mode -/

/-- Whatever the word, the first cause in order is recorded with it: ILLEGAL_CMD before the command's
own checks. -/
theorem coreStep_recordsCause (w : Word) :
    RecordsCause (causeOf w s) w (acceptWord s) (coreStep w s) := by
  have haccept : (acceptWord s).mode = .run := hrun
  unfold coreStep
  split
  case h_1 i hw => exact exec_recordsCause haccept hw
  case h_2 hw =>
    simp only [causeOf, hw]
    exact inRun_run haccept _

theorem step_of_cause {c : Cause} (hcmd : s.cmd = some w) (hcause : causeOf w s = some c) :
    step s = .next (raiseError c w (acceptWord s)) := by
  have hrecord := coreStep_recordsCause hrun w
  rw [hcause] at hrecord
  exact (step_of_cmd hcmd).trans hrecord

theorem step_of_no_cause (hcmd : s.cmd = some w) (hcause : causeOf w s = none) :
    ∃ t, step s = .next t ∧ SameRecord s t := by
  have hrecord := coreStep_recordsCause hrun w
  rw [hcause, ← step_of_cmd hcmd] at hrecord
  exact hrecord

end

/-! ### The steps that change MODE (60_exceptions.md R215, R216) -/

theorem step_of_reset {s t : State} (hreset : ResetIsNext s) (hstep : step s = .next t) :
    t.mode = .run := by
  obtain ⟨hcmd, hhead⟩ := hreset
  obtain ⟨rest, hscript⟩ := List.head?_eq_some_iff.1 hhead
  rw [step, hcmd, hostStep, hscript] at hstep
  cases hstep
  rfl

/-- With no word at the port only the host's reset changes the core (20_memory.md R72). -/
theorem step_sameCore_of_no_word {s t : State} (hcmd : s.cmd = none) (hreset : ¬ ResetIsNext s)
    (hstep : step s = .next t) : SameCore s t := by
  rcases step_cases s with ⟨w, _, hw, -⟩ | ⟨w, hw, -⟩ | ⟨a, rest, -, hscript, hnext⟩ |
    ⟨-, -, hnext⟩
  · simp [hcmd] at hw
  · simp [hcmd] at hw
  · have ha : a ≠ .assertReset := fun ha => hreset ⟨hcmd, by simp [hscript, ha]⟩
    cases hnext.symm.trans hstep
    obtain ⟨⟩ := hostAct_sameCore ha { s with host := { s.host with script := rest } }
    constructor <;> assumption
  · cases hnext.symm.trans hstep
    constructor <;> rfl

/-- In FAULTED mode only the host's reset changes the core (60_exceptions.md R215). -/
theorem step_sameCore_of_faulted {s t : State} (hmode : s.mode = .faulted) (hreset : ¬ ResetIsNext s)
    (hstep : step s = .next t) : SameCore s t := by
  cases hcmd : s.cmd with
  | none => exact step_sameCore_of_no_word hcmd hreset hstep
  | some w =>
    cases (step_of_faulted hmode hcmd).symm.trans hstep
    constructor <;> rfl

/-- A step from RUN to FAULTED mode is error entry on the word at the port (60_exceptions.md R212). -/
theorem exists_cause_of_step_faulted {s t : State} (hrun : s.mode = .run) (hstep : step s = .next t)
    (hmode : t.mode = .faulted) :
    ∃ w c, s.cmd = some w ∧ causeOf w s = some c ∧ t = raiseError c w (acceptWord s) := by
  have hne : t.mode ≠ s.mode := by simp [hrun, hmode]
  cases hcmd : s.cmd with
  | none =>
    by_cases hreset : ResetIsNext s
    · exact absurd ((step_of_reset hreset hstep).trans hrun.symm) hne
    · exact absurd (step_sameCore_of_no_word hcmd hreset hstep).mode hne
  | some w =>
    cases hcause : causeOf w s with
    | none =>
      obtain ⟨u, hu, hsame, -⟩ := step_of_no_cause hrun hcmd hcause
      cases hu.symm.trans hstep
      exact absurd hsame hne
    | some c =>
      cases (step_of_cause hrun hcmd hcause).symm.trans hstep
      exact ⟨w, c, rfl, hcause, rfl⟩

theorem faultFlag_eq_false_iff (s : State) : faultFlag s = false ↔ s.mode = .run := by
  cases hmode : s.mode <;> simp [faultFlag, hmode]

end Sys2Proof.Machine
end

section
/-! The statements about the exceptions (60_exceptions.md), settled from the lemmas above. -/

open Sys2Proof Sys2Proof.Machine

/-- Settles O36: the gate, then the decoder, then the command's own checks, each with its error entry. -/
theorem theFirstCauseInOrderIsRecorded : Obligations.TheFirstCauseInOrderIsRecorded := by
  refine fun s w hcmd => ⟨fun hfaulted => step_of_faulted hfaulted hcmd,
    fun hrun c hcause => step_of_cause hrun hcmd hcause, fun hrun hcause => ?_⟩
  obtain ⟨t, hstep, hmode, herrc, herrcmd⟩ := step_of_no_cause hrun hcmd hcause
  exact ⟨t, hstep, hmode.trans hrun, herrc, herrcmd⟩

/-- Settles O35: only error entry on the word leads from RUN to FAULTED mode. -/
theorem errorsArePreciseAtEveryStep : Obligations.ErrorsArePreciseAtEveryStep := by
  intro s t w hrun hcmd hstep hmode
  obtain ⟨w', c, hcmd', hcause, rfl⟩ := exists_cause_of_step_faulted hrun hstep hmode
  obtain rfl : w' = w := Option.some.inj (hcmd'.symm.trans hcmd)
  exact ⟨c, hcause, rfl⟩

/-- Settles O11: the gate discards every word, and of the host's actions only reset reaches the core. -/
theorem faultedDiscardsEveryWord : Obligations.FaultedDiscardsEveryWord :=
  ⟨fun _ _ => step_of_faulted, fun _ i hmode => exec_of_faulted hmode i,
    fun _ _ hmode hstep hreset => step_sameCore_of_faulted hmode hreset hstep,
    fun _ _ hstep hreset => step_of_reset hreset hstep⟩

/-- Settles O19: MODE rises by error entry alone and falls by reset alone. -/
theorem faultOutputFollowsTheMode : Obligations.FaultOutputFollowsTheMode := by
  refine ⟨fun s => ⟨faultFlag_iff s, (statusWord_fault s).symm⟩, fun s t hlow hstep hhigh => ?_,
    fun s t hhigh hstep hlow => ?_⟩
  · obtain ⟨w, c, hcmd, -, ht⟩ := exists_cause_of_step_faulted
      ((faultFlag_eq_false_iff s).1 hlow) hstep ((faultFlag_iff t).1 hhigh)
    exact ⟨w, c, hcmd, ht⟩
  · by_contra hreset
    have hmode := (step_sameCore_of_faulted ((faultFlag_iff s).1 hhigh) hreset hstep).mode
    simp [(faultFlag_iff s).1 hhigh, (faultFlag_eq_false_iff t).1 hlow] at hmode

end

section
/-! SUPPORT. The step of a host action (20_memory.md R72), and fault_o after reset
(70_reset_and_hazards.md R250). -/

namespace Sys2Proof.Machine

/-- With no word at the port the step is the next action of the host's script (20_memory.md R72). -/
theorem step_of_hostAction {s : State} {a : HostAction} {rest : List HostAction}
    (hcmd : s.cmd = none) (hscript : s.host.script = a :: rest) :
    step s = .next (hostAct a { s with host := { s.host with script := rest } }) := by
  simp [step, hostStep, hcmd, hscript]

/-- Reset lowers fault_o (70_reset_and_hazards.md R250). -/
theorem faultO_applyReset (s : State) : faultO (applyReset s) = false :=
  (faultFlag_eq_false_iff _).2 (atReset_applyReset s).mode

end Sys2Proof.Machine
end

section
/-! The statement about reset (70_reset_and_hazards.md), settled from the lemmas above. -/

open Sys2Proof Sys2Proof.Machine

/-- Settles O1: reset is a host action, and the host acts only while no word is at the port. -/
theorem resetSetsEveryElement : Obligations.ResetSetsEveryElement :=
  ⟨fun s => ⟨atReset_applyReset s, faultO_applyReset s, applyReset_bin s, applyReset_bout s,
      applyReset_sout s⟩,
    fun _ _ hcmd hscript => step_of_hostAction hcmd hscript,
    fun _ _ hcmd => step_of_cmd hcmd⟩

end

section
/-! SUPPORT. Every assembled word decodes to its command (30_encoding.md R95, R100). -/

namespace Sys2Proof

theorem decode_encode_wbit (b : Bit) : decode (encode (.wbit b)) = some (.wbit b) :=
  decode_wordOf (r := opcodeMap[8]) (opc := 0x40) (List.getElem_mem _) rfl
    (Laws.WellFormedWord.wbit b)

theorem decode_encode (i : Instr) : decode (encode i) = some i := by
  cases i with
  | fwr sym imm => exact decode_encode_fwr sym imm
  | finc sym => exact decode_encode_finc sym
  | frd sym => exact decode_encode_frd sym
  | enc sym => exact decode_encode_enc sym
  | wbit b => exact decode_encode_wbit b
  | nop | fclr | build | dec | wflush | rinit | rbit => rfl

end Sys2Proof
end

section
/-! SUPPORT. What every step keeps (10_state.md R24, R25, R27, R28, R42): each part of the invariant is
about elements that few commands write, so only these commands have to be looked at. -/

namespace Sys2Proof.Machine

/-! ### The state that only the host has touched -/

/-- The invariant is about the core's tuple. -/
theorem Inv.of_sameCore {s t : State} (hinv : Inv s) (h : SameCore s t) : Inv t where
  ft := h.ft ▸ hinv.ft
  tree := by
    rw [treeInv, h.ts, h.total, h.nsym]
    exact hinv.tree
  writer := by
    rw [writerInv, h.bwBuf, h.bwCnt]
    exact hinv.writer
  reader := by
    rw [readerInv, h.brBuf, h.brCnt, h.brInit, h.eos]
    exact hinv.reader
  error := by
    rw [errorInv, h.mode, h.errc, h.errcmd]
    exact hinv.error

theorem inv_applyReset (s : State) : Inv (applyReset s) where
  ft := Memory.wf_nil
  tree := rfl
  writer := fun _ _ => BitVec.getLsbD_zero
  reader := fun _ => ⟨rfl, rfl, rfl⟩
  error := rfl

theorem sameCore_acceptWord (s : State) : SameCore s (acceptWord s) := by constructor <;> rfl

/-! ### What a command keeps -/

theorem next_unique {o : Outcome} {s t : State} (hs : o = .next s) (ht : o = .next t) : s = t :=
  Host.Outcome.next.inj (hs.symm.trans ht)

/-- A property of one element is kept by a command if the commands that write the element keep it in
RUN mode (10_state.md R46). -/
theorem exec_keeps {i : Instr} {s t : State} {P : State → Prop} (e : Element)
    (h : exec i s = .next t) (hP : P s) (hsame : sameElement e s t → P t)
    (hwrites : s.mode = .run → e ∈ mayWrite i → P t) : P t := by
  by_cases he : e ∈ mayWrite i
  · cases hmode : s.mode with
    | run => exact hwrites hmode he
    | faulted =>
      cases next_unique h (exec_of_faulted hmode i)
      exact hP
  · exact hsame (exec_sameElement h he)

theorem exec_ft_wf {i : Instr} {s t : State} (h : exec i s = .next t) (hwf : s.ft.wf) : t.ft.wf := by
  refine exec_keeps (P := fun u => u.ft.wf) .table h hwf (fun hsame => hsame ▸ hwf) fun hrun he => ?_
  cases i with
  | fclr =>
    cases next_unique h (exec_fclr hrun)
    exact Memory.wf_clear s.ft
  | fwr sym imm =>
    cases next_unique h (exec_fwr hrun sym imm)
    exact Memory.wf_write hwf (ftIndex_lt sym) imm
  | finc sym =>
    by_cases hmax : s.ft.read (ftIndex sym) = Config.countMax
    · cases next_unique h (exec_finc_of_max hrun hmax)
      exact hwf
    · cases next_unique h (exec_finc_of_ne_max hrun hmax)
      exact Memory.wf_write hwf (ftIndex_lt sym) _
  | _ => simp [mayWrite] at he

/-- BUILD makes TS, TOTAL and NSYM agree (10_state.md R24, R25). -/
theorem treeInv_afterBuild (s : State) : treeInv (afterBuild s) = true := by
  cases htree : buildTree s.ft with
  | none =>
    have hzero := buildTree_eq_none.1 htree
    simp [treeInv, afterBuild, htree, treeStateOf, totalOf_eq_zero hzero, nsymOf_eq_zero hzero]
  | some tree =>
    simp [treeInv, afterBuild, htree, treeStateOf, buildTree_wf htree, buildTree_count htree,
      buildTree_nsym htree]

theorem exec_treeInv {i : Instr} {s t : State} (h : exec i s = .next t) (hinv : treeInv s = true) :
    treeInv t = true := by
  refine exec_keeps (P := (treeInv · = true)) .tree h hinv (fun ⟨hts, htotal, hnsym⟩ => ?_)
    fun hrun he => ?_
  · rw [treeInv, hts, htotal, hnsym]
    exact hinv
  · cases i with
    | build =>
      cases next_unique h (exec_build hrun)
      exact treeInv_afterBuild s
    | _ => simp [mayWrite] at he

/-- In RUN mode ENC raises an error or puts the bits of a code (43_encode_decode.md R180). -/
theorem exec_enc_run_cases {s : State} (hrun : s.mode = .run) (sym : Sym) :
    (∃ c, exec (.enc sym) s = .next (raiseError c (encode (.enc sym)) s)) ∨
      ∃ code, exec (.enc sym) s = .next (bwPutAll code s) := by
  cases hts : s.ts with
  | none => exact .inl ⟨_, exec_enc_of_unbuilt hrun hts⟩
  | empty => exact .inl ⟨_, exec_enc_of_empty hrun hts⟩
  | built tree =>
    cases hcode : tree.code sym with
    | none => exact .inl ⟨_, exec_enc_of_absent hrun hts hcode⟩
    | some code => exact .inr ⟨code, exec_enc_of_code hrun hts hcode⟩

theorem exec_writerInv {i : Instr} {s t : State} (h : exec i s = .next t) (hinv : writerInv s) :
    writerInv t := by
  refine exec_keeps .writer h hinv (fun ⟨hbuf, hcnt, _⟩ => ?_) fun hrun he => ?_
  · rw [writerInv, hbuf, hcnt]
    exact hinv
  · cases i with
    | enc sym =>
      obtain ⟨c, herror⟩ | ⟨code, hput⟩ := exec_enc_run_cases hrun sym
      · cases next_unique h herror
        exact hinv
      · cases next_unique h hput
        exact writerInv_bwPutAll hinv code
    | wbit b =>
      cases next_unique h (exec_wbit hrun b)
      exact writerInv_bwPut hinv b
    | wflush =>
      cases next_unique h (exec_wflush hrun)
      exact writerInv_bwFlush s
    | _ => simp [mayWrite] at he

/-- No command undoes RINIT (10_state.md R28). -/
theorem exec_brInit {i : Instr} {s t : State} (h : exec i s = .next t) (hinit : s.brInit = true) :
    t.brInit = true := by
  refine exec_keeps (P := (·.brInit = true)) .readerInit h hinit (fun hsame => hsame ▸ hinit)
    fun hrun he => ?_
  cases i with
  | rinit =>
    cases next_unique h (execRinitWith_run _ hrun)
    rfl
  | _ => simp [mayWrite] at he

/-- In RUN mode DEC raises an error with no bit read, or its checks have passed (43_encode_decode.md
R182). -/
theorem execDecWith_run_cases {s : State} (hrun : s.mode = .run) :
    (∃ c, ∀ fill, execDecWith fill s = .next (raiseError c (encode .dec) s)) ∨
      ∃ tree, s.ts = .built tree ∧ s.brInit = true := by
  cases hts : s.ts with
  | none => exact .inl ⟨_, fun fill => execDecWith_of_unbuilt fill hrun hts⟩
  | empty => exact .inl ⟨_, fun fill => execDecWith_of_empty fill hrun hts⟩
  | built tree =>
    cases hinit : s.brInit with
    | false => exact .inl ⟨_, fun fill => execDecWith_of_uninit fill hrun hts hinit⟩
    | true => exact .inr ⟨tree, rfl, rfl⟩

theorem exec_readerInv {i : Instr} {s t : State} (h : exec i s = .next t) (hinv : readerInv s) :
    readerInv t := by
  intro hinit
  have hinit₀ : s.brInit = false := by
    by_contra hne
    simp [exec_brInit h (by simpa using hne)] at hinit
  refine exec_keeps (P := fun u => u.brBuf = 0 ∧ u.brCnt = 0 ∧ u.eos = false) .reader h
    (hinv hinit₀) (fun ⟨hbuf, hcnt, heos, _⟩ => ?_) fun hrun he => ?_
  · rw [hbuf, hcnt, heos]
    exact hinv hinit₀
  · cases i with
    | dec =>
      obtain ⟨c, herror⟩ | ⟨_, _, hinit₁⟩ := execDecWith_run_cases hrun
      · cases next_unique h (herror _)
        exact hinv hinit₀
      · simp [hinit₀] at hinit₁
    | rbit =>
      cases next_unique h (execRbitWith_uninit _ hrun hinit₀)
      exact hinv hinit₀
    | rinit =>
      cases next_unique h (execRinitWith_run _ hrun)
      cases hinit
    | _ => simp [mayWrite] at he

/-! ### The error record (10_state.md R42) -/

/-- The cause a word raises is one it can have raised (60_exceptions.md R211). -/
theorem causeFits_of_causeOf {w : Word} {s : State} {c : Cause} (h : causeOf w s = some c) :
    causeFits c.code w = true := by
  cases hw : decode w with
  | none =>
    obtain rfl : .illegalCmd = c := by simpa [causeOf, hw] using h
    simp [causeFits, hw, Cause.code]
  | some i =>
    cases i with
    | enc | dec =>
      cases hts : s.ts with
      | none | empty =>
        obtain rfl : _ = c := by simpa [causeOf, hw, hts] using h
        simp [causeFits, hw, Cause.code]
      | built tree =>
        simp only [causeOf, hw, hts] at h
        split at h <;> cases h
        simp [causeFits, hw, Cause.code]
    | rbit | finc =>
      simp only [causeOf, hw] at h
      split at h <;> cases h
      simp [causeFits, hw, Cause.code]
    | _ => simp [causeOf, hw] at h

/-- Error entry writes the record, and no other part of the invariant is about it. -/
theorem Inv.of_raiseError {s : State} (hinv : Inv s) {c : Cause} {w : Word}
    (hfits : causeFits c.code w = true) : Inv (raiseError c w s) where
  ft := hinv.ft
  tree := hinv.tree
  writer := hinv.writer
  reader := hinv.reader
  error := hfits

/-- A command that leaves the error record keeps the invariant. -/
theorem Inv.of_exec {i : Instr} {s t : State} (hinv : Inv s) (h : exec i s = .next t)
    (hrecord : SameRecord s t) : Inv t where
  ft := exec_ft_wf h hinv.ft
  tree := exec_treeInv h hinv.tree
  writer := exec_writerInv h hinv.writer
  reader := exec_readerInv h hinv.reader
  error := by
    obtain ⟨hmode, herrc, herrcmd⟩ := hrecord
    rw [errorInv, hmode, herrc, herrcmd]
    exact hinv.error

/-! ### What a step keeps -/

/-- A word in RUN mode raises its cause or executes its command without error. -/
theorem Inv.of_step_of_run {s t : State} {w : Word} (hinv : Inv s) (hrun : s.mode = .run)
    (hcmd : s.cmd = some w) (h : step s = .next t) : Inv t := by
  have haccept := hinv.of_sameCore (sameCore_acceptWord s)
  cases hcause : causeOf w s with
  | some c =>
    cases next_unique h (step_of_cause hrun hcmd hcause)
    exact haccept.of_raiseError (causeFits_of_causeOf hcause)
  | none =>
    obtain ⟨u, hu, hrecord⟩ := step_of_no_cause hrun hcmd hcause
    cases next_unique h hu
    cases hw : decode w with
    | none => simp [causeOf, hw] at hcause
    | some i =>
      rw [step_of_cmd hcmd, coreStep, hw] at h
      exact haccept.of_exec h hrecord

theorem Inv.of_step {s t : State} (hinv : Inv s) (h : step s = .next t) : Inv t := by
  by_cases hreset : ResetIsNext s
  · obtain ⟨hcmd, hhead⟩ := hreset
    obtain ⟨rest, hscript⟩ := List.head?_eq_some_iff.1 hhead
    cases next_unique h (step_of_hostAction hcmd hscript)
    exact inv_applyReset _
  cases hcmd : s.cmd with
  | none => exact hinv.of_sameCore (step_sameCore_of_no_word hcmd hreset h)
  | some w =>
    cases hmode : s.mode with
    | run => exact hinv.of_step_of_run hmode hcmd h
    | faulted => exact hinv.of_sameCore (step_sameCore_of_faulted hmode hreset h)

end Sys2Proof.Machine
end

section
/-! SUPPORT. What repeats and what does not matter (10_state.md R29 to R32, 20_memory.md R69,
40_bitio.md R121): the streams move one way, a second execution of six commands does nothing, no command
reads EOS, and a drawn byte shows in EOS. -/

namespace Sys2Proof.Machine

/-! ### Every step answers a next state (70_reset_and_hazards.md R265) -/

theorem step_next (s : State) : ∃ t, step s = .next t := by
  rcases step_cases s with ⟨_, i, -, -, hstep⟩ | ⟨w, -, -, hstep⟩ | ⟨_, _, -, -, hstep⟩ | ⟨-, -, hstep⟩
  · exact hstep ▸ exec_next i _
  · exact hstep ▸ inRun_next _ _
  · exact ⟨_, hstep⟩
  · exact ⟨_, hstep⟩

/-! ### The streams (10_state.md R30 to R32) -/

/-- Bytes leave BIN at its front only, and BOUT and SOUT grow at their ends only. -/
def StreamsMove (s t : State) : Prop := t.bin <:+ s.bin ∧ s.bout <+: t.bout ∧ s.sout <+: t.sout

/-- A property of the reader that BR_fill, BR_get and the decoder's walk keep is kept by every command:
no other command writes the reader (10_state.md R46). -/
theorem exec_reader_induction {P : State → Prop} {i : Instr} {s t : State} (h : exec i s = .next t)
    (hreader : ∀ u v, sameElement .reader u v → P u → P v) (hs : P s)
    (hfill : P (brFill Config.eosFill s)) (hget : P (brGet Config.eosFill s).2)
    (hdecode : ∀ tree, P (decodeSym Config.eosFill tree s).2) : P t := by
  refine exec_keeps .reader h hs (fun hsame => hreader s t hsame hs) fun hrun he => ?_
  cases i with
  | rinit =>
    cases next_unique h (execRinitWith_run _ hrun)
    exact hreader (brFill Config.eosFill s) _ ⟨rfl, rfl, rfl, rfl⟩ hfill
  | rbit =>
    cases hinit : s.brInit with
    | false =>
      cases next_unique h (execRbitWith_uninit _ hrun hinit)
      exact hreader _ _ (sameElement_raiseError _ _ _ s) hs
    | true =>
      cases next_unique h (execRbitWith_init _ hrun hinit)
      exact hreader (brGet Config.eosFill s).2 _ ⟨rfl, rfl, rfl, rfl⟩ hget
  | dec =>
    obtain ⟨c, herror⟩ | ⟨tree, hts, hinit⟩ := execDecWith_run_cases hrun
    · cases next_unique h (herror _)
      exact hreader _ _ (sameElement_raiseError _ _ _ s) hs
    · cases next_unique h (execDecWith_of_built _ hrun hts hinit)
      exact hreader (decodeSym Config.eosFill tree s).2 _ ⟨rfl, rfl, rfl, rfl⟩ (hdecode tree)
  | _ => simp [mayWrite] at he

theorem exec_bin_suffix {i : Instr} {s t : State} (h : exec i s = .next t) : t.bin <:+ s.bin :=
  exec_reader_induction (P := (·.bin <:+ s.bin)) h (fun _ _ ⟨_, _, _, hbin⟩ hu => hbin ▸ hu)
    (List.suffix_refl _) (brFill_bin_suffix _ s) (brGet_bin_suffix _ s)
    fun tree => decodeSym_bin_suffix _ tree s

theorem WritesOnly.outputs {i : Instr} {s t : State} (h : WritesOnly i s t) :
    s.bout <+: t.bout ∧ s.sout <+: t.sout := by
  cases i with
  | nop => exact h ▸ ⟨List.prefix_rfl, List.prefix_rfl⟩
  | fclr | fwr | finc | frd =>
    obtain ⟨_, rfl⟩ := h
    exact ⟨List.prefix_rfl, List.prefix_rfl⟩
  | build =>
    obtain ⟨_, _, _, rfl⟩ := h
    exact ⟨List.prefix_rfl, List.prefix_rfl⟩
  | enc | wbit | wflush =>
    obtain ⟨_, _, _, rfl⟩ := h
    exact ⟨List.prefix_append _ _, List.prefix_rfl⟩
  | rinit | rbit =>
    obtain ⟨_, _, _, _, _, _, rfl⟩ := h
    exact ⟨List.prefix_rfl, List.prefix_rfl⟩
  | dec =>
    obtain ⟨_, _, _, _, _, _, _, rfl⟩ := h
    exact ⟨List.prefix_rfl, List.prefix_append _ _⟩

theorem exec_streamsMove {i : Instr} {s t : State} (h : exec i s = .next t) : StreamsMove s t := by
  refine ⟨exec_bin_suffix h, ?_⟩
  rcases exec_cases h with ⟨c, -, rfl⟩ | hwrites
  · exact ⟨List.prefix_rfl, List.prefix_rfl⟩
  · exact hwrites.outputs

theorem coreStep_streamsMove {w : Word} {s t : State} (h : coreStep w s = .next t) :
    StreamsMove s t := by
  unfold coreStep at h
  split at h
  · exact exec_streamsMove (s := acceptWord s) h
  · rcases execIllegal_cases h with ⟨-, rfl⟩ | ⟨-, rfl⟩ <;>
      exact ⟨List.suffix_refl _, List.prefix_rfl, List.prefix_rfl⟩

/-! ### Executing a command twice (20_memory.md R69) -/

theorem Memory.filter_insert (m : Memory) (a : Nat) (v : Count) :
    (Memory.insert a v m).filter (fun e => e.1 != a) = m.filter (fun e => e.1 != a) := by
  induction m with
  | nil => simp [Memory.insert]
  | cons e m ih =>
    obtain ⟨k, x⟩ := e
    unfold Memory.insert
    split
    · simp
    · rw [List.filter_cons, List.filter_cons, ih]

/-- The second of two equal writes changes nothing, whatever the list held. -/
theorem Memory.write_write (m : Memory) (a : Nat) (v : Count) :
    (m.write a v).write a v = m.write a v := by
  have hothers : (m.write a v).filter (fun e => e.1 != a) = m.filter fun e => e.1 != a := by
    unfold Memory.write
    split
    · simp
    · rw [Memory.filter_insert]
      simp
  rw [Memory.write, hothers, Memory.write]

theorem bwFlush_bwFlush (s : State) : bwFlush (bwFlush s) = bwFlush s := by
  obtain ⟨emitted, hflush⟩ := bwFlush_frame s
  rw [hflush, bwFlush_of_empty rfl]

/-- A command is idempotent if its effect is, because it leaves a FAULTED state alone. -/
theorem exec_idempotent {i : Instr} {effect : State → State} (hexec : ∀ s, exec i s = inRun s effect)
    (heffect : ∀ s, effect (effect s) = effect s) {s t : State} (h : exec i s = .next t) :
    exec i t = .next t := by
  cases hmode : t.mode with
  | faulted => exact exec_of_faulted hmode i
  | run =>
    rcases inRun_next_iff.1 (hexec s ▸ h) with ⟨-, rfl⟩ | ⟨-, rfl⟩
    · rw [hexec, inRun_run hmode, heffect]
    · exact h

/-! ### EOS (10_state.md R29) -/

/-- EOS is sticky. -/
theorem exec_eos {i : Instr} {s t : State} (h : exec i s = .next t) (heos : s.eos = true) :
    t.eos = true :=
  exec_reader_induction (P := (·.eos = true)) h (fun _ _ ⟨_, _, hsame, _⟩ hu => hsame ▸ hu) heos
    (brFill_eos _ heos) (brGet_eos _ heos) fun tree => decodeSym_eos _ tree heos

theorem coreStep_eos {w : Word} {s t : State} (h : coreStep w s = .next t) (heos : s.eos = true) :
    t.eos = true := by
  unfold coreStep at h
  split at h
  · exact exec_eos h heos
  · rcases execIllegal_cases h with ⟨-, rfl⟩ | ⟨-, rfl⟩ <;> exact heos

/-- Only reset clears EOS. -/
theorem step_eos {s t : State} (heos : s.eos = true) (h : step s = .next t)
    (hreset : ¬ ResetIsNext s) : t.eos = true := by
  cases hcmd : s.cmd with
  | none => exact (step_sameCore_of_no_word hcmd hreset h).eos.trans heos
  | some w => exact coreStep_eos ((step_of_cmd hcmd).symm.trans h) heos

/-- The state with EOS set. -/
def withEos (s : State) : State := { s with eos := true }

/-- The operation does the same to a state with EOS set. -/
def IgnoresEos (effect : State → State) : Prop := ∀ s, effect (withEos s) = withEos (effect s)

theorem ignoresEos_bwPut (b : Bit) : IgnoresEos (bwPut b) := by
  intro s
  unfold bwPut
  rw [apply_ite withEos]
  rfl

theorem ignoresEos_bwPutAll (c : List Bit) : IgnoresEos (bwPutAll c) := by
  intro s
  induction c generalizing s with
  | nil => rfl
  | cons b c ih => rw [bwPutAll_cons, ignoresEos_bwPut, ih, bwPutAll_cons]

theorem ignoresEos_bwFlush : IgnoresEos bwFlush := by
  intro s
  unfold bwFlush
  rw [apply_ite withEos]
  rfl

theorem ignoresEos_brFill (fill : Nat → Byte) : IgnoresEos (brFill fill) := by
  intro s
  cases hbin : s.bin with
  | nil => rw [brFill_of_empty fill hbin, brFill_of_empty fill (s := withEos s) hbin]; rfl
  | cons byte rest => rw [brFill_of_byte fill hbin, brFill_of_byte fill (s := withEos s) hbin]; rfl

theorem brGet_withEos (fill : Nat → Byte) (s : State) :
    brGet fill (withEos s) = ((brGet fill s).1, withEos (brGet fill s).2) := by
  have hrefill : brRefill fill (withEos s) = withEos (brRefill fill s) := by
    unfold brRefill
    rw [apply_ite withEos, ← ignoresEos_brFill]
    rfl
  rw [brGet, hrefill]
  rfl

theorem walk_withEos (fill : Nat → Byte) (t : CodeTree) (s : State) :
    walk fill t (withEos s) = ((walk fill t s).1, withEos (walk fill t s).2) := by
  induction t generalizing s with
  | leaf sym count => rfl
  | node nsym count left right ihl ihr =>
    rw [walk_node, walk_node, brGet_withEos]
    cases (brGet fill s).1 with
    | false => exact ihl _
    | true => exact ihr _

theorem decodeSym_withEos (fill : Nat → Byte) (t : CodeTree) (s : State) :
    decodeSym fill t (withEos s) = ((decodeSym fill t s).1, withEos (decodeSym fill t s).2) := by
  cases t with
  | leaf sym count => exact congrArg (fun p => (sym, p.2)) (brGet_withEos fill s)
  | node nsym count left right => exact walk_withEos fill _ s

@[simp] theorem withEos_ts (s : State) : (withEos s).ts = s.ts := rfl
@[simp] theorem withEos_brInit (s : State) : (withEos s).brInit = s.brInit := rfl

/-- Every meaning is an effect that ignores EOS, behind the gate. -/
theorem exec_ignoresEos (i : Instr) :
    ∃ effect, (∀ s, exec i s = inRun s effect) ∧ IgnoresEos effect := by
  cases i with
  | nop => exact ⟨id, fun _ => rfl, fun _ => rfl⟩
  | fclr => exact ⟨fun s => { s with ft := s.ft.clear }, fun _ => rfl, fun _ => rfl⟩
  | fwr | frd | build => exact ⟨_, fun _ => rfl, fun _ => rfl⟩
  | wbit b => exact ⟨_, fun _ => rfl, ignoresEos_bwPut b⟩
  | wflush => exact ⟨_, fun _ => rfl, ignoresEos_bwFlush⟩
  | finc sym =>
    refine ⟨_, fun _ => rfl, fun s => ?_⟩
    rw [apply_ite withEos]
    rfl
  | enc sym =>
    refine ⟨_, fun _ => rfl, fun s => ?_⟩
    simp only [withEos_ts]
    split
    · rfl
    · rfl
    · split
      · rfl
      · exact ignoresEos_bwPutAll _ s
  | dec =>
    refine ⟨_, fun _ => rfl, fun s => ?_⟩
    simp only [withEos_ts, withEos_brInit, decodeSym_withEos]
    split
    · rfl
    · rfl
    · split
      · rfl
      · rfl
  | rinit =>
    exact ⟨_, fun _ => rfl, fun s => congrArg ({ · with brInit := true }) (ignoresEos_brFill _ s)⟩
  | rbit =>
    refine ⟨_, fun _ => rfl, fun s => ?_⟩
    simp only [withEos_brInit, brGet_withEos]
    rw [apply_ite withEos]
    rfl

/-- No command's effect depends on EOS (10_state.md R29). -/
theorem exec_withEos {i : Instr} {s t : State} (h : exec i s = .next t) :
    exec i (withEos s) = .next (withEos t) := by
  obtain ⟨effect, hexec, heffect⟩ := exec_ignoresEos i
  rw [hexec] at h ⊢
  rcases inRun_next_iff.1 h with ⟨hrun, rfl⟩ | ⟨hfaulted, rfl⟩
  · rw [inRun_run (s := withEos s) hrun, heffect]
  · exact inRun_faulted (s := withEos _) hfaulted _

/-! ### Drawn bytes (40_bitio.md R121) -/

section

variable (f g : Nat → Byte)

/-- A fill that leaves EOS at 0 takes a byte of BIN. -/
theorem brFill_eq_of_eos {s : State} (heos : (brFill f s).eos = false) : brFill g s = brFill f s := by
  cases hbin : s.bin with
  | nil => simp [brFill_of_empty f hbin] at heos
  | cons byte rest => rw [brFill_of_byte f hbin, brFill_of_byte g hbin]

theorem brGet_eq_of_eos {s : State} (heos : (brGet f s).2.eos = false) : brGet g s = brGet f s := by
  have hrefill : brRefill g s = brRefill f s := by
    unfold brRefill
    split
    next hfull =>
      refine brFill_eq_of_eos f g ?_
      rwa [brGet, brRefill, if_pos hfull] at heos
    next => rfl
  rw [brGet, brGet, hrefill]

theorem walk_eq_of_eos {t : CodeTree} {s : State} (heos : (walk f t s).2.eos = false) :
    walk g t s = walk f t s := by
  induction t generalizing s with
  | leaf sym count => rfl
  | node nsym count left right ihl ihr =>
    rw [walk_node] at heos
    have hbit : (brGet f s).2.eos = false := by
      by_contra hne
      simp [walk_eos f _ (Bool.eq_true_of_not_eq_false hne)] at heos
    rw [walk_node, walk_node, brGet_eq_of_eos f g hbit]
    cases hside : (brGet f s).1 with
    | false => exact ihl (by simpa [hside] using heos)
    | true => exact ihr (by simpa [hside] using heos)

theorem decodeSym_eq_of_eos {t : CodeTree} {s : State} (heos : (decodeSym f t s).2.eos = false) :
    decodeSym g t s = decodeSym f t s := by
  cases t with
  | leaf sym count => exact congrArg (fun p => (sym, p.2)) (brGet_eq_of_eos f g heos)
  | node nsym count left right => exact walk_eq_of_eos f g heos

/-- In FAULTED mode no effect shows, so none can depend on a draw. -/
theorem inRun_next_of_faulted {effect effect' : State → State} {s t : State} (hmode : s.mode = .faulted)
    (h : inRun s effect = .next t) : inRun s effect' = .next t := by
  cases next_unique h (inRun_faulted hmode effect)
  exact inRun_faulted hmode effect'

variable {f g} {s t : State} (heos : t.eos = false)
include heos

theorem execRinitWith_of_eos (h : execRinitWith f s = .next t) : execRinitWith g s = .next t := by
  cases hmode : s.mode with
  | faulted => exact inRun_next_of_faulted hmode h
  | run =>
    cases next_unique h (execRinitWith_run f hmode)
    rw [execRinitWith_run g hmode, brFill_eq_of_eos f g heos]

theorem execRbitWith_of_eos (h : execRbitWith f s = .next t) : execRbitWith g s = .next t := by
  cases hmode : s.mode with
  | faulted => exact inRun_next_of_faulted hmode h
  | run =>
    cases hinit : s.brInit with
    | false =>
      cases next_unique h (execRbitWith_uninit f hmode hinit)
      exact execRbitWith_uninit g hmode hinit
    | true =>
      cases next_unique h (execRbitWith_init f hmode hinit)
      rw [execRbitWith_init g hmode hinit, brGet_eq_of_eos f g heos]

theorem execDecWith_of_eos (h : execDecWith f s = .next t) : execDecWith g s = .next t := by
  cases hmode : s.mode with
  | faulted => exact inRun_next_of_faulted hmode h
  | run =>
    obtain ⟨c, herror⟩ | ⟨tree, hts, hinit⟩ := execDecWith_run_cases hmode
    · cases next_unique h (herror f)
      exact herror g
    · cases next_unique h (execDecWith_of_built f hmode hts hinit)
      rw [execDecWith_of_built g hmode hts hinit, decodeSym_eq_of_eos f g heos]

end

end Sys2Proof.Machine
end

section
/-! SUPPORT. The priority relation as an order (42_build.md R160, R161), the construction on a rearranged
collection (R162, R172), and the symbols that have a code (R168). -/

namespace Sys2Proof.Machine

/-! ### The priority relation (42_build.md R160, R161) -/

theorem higher_eq_false_iff (a b : CodeTree) : higher a b = false ↔ rank b ≤ rank a := by
  rw [← Bool.not_eq_true, higher_iff, not_lt]

theorem higher_self (a : CodeTree) : higher a a = false := (higher_eq_false_iff a a).2 le_rfl

theorem higher_trans {a b c : CodeTree} (hab : higher a b = true) (hbc : higher b c = true) :
    higher a c = true :=
  (higher_iff a c).2 (((higher_iff a b).1 hab).trans ((higher_iff b c).1 hbc))

theorem higher_total {a b : CodeTree} (hsym : a.sym ≠ b.sym) :
    (higher a b = true ∧ higher b a = false) ∨ (higher a b = false ∧ higher b a = true) := by
  simp only [higher_iff, higher_eq_false_iff]
  rcases lt_or_gt_of_ne fun hrank => hsym (rank_inj hrank).2 with hlt | hlt
  · exact .inl ⟨hlt, hlt.le⟩
  · exact .inr ⟨hlt.le, hlt⟩

theorem higher_of_eq {a b : CodeTree} (hsym : a.sym = b.sym) (hcount : a.count = b.count) :
    higher a b = false ∧ higher b a = false := by
  have hrank : rank a = rank b := by rw [rank, rank, hsym, hcount]
  exact ⟨(higher_eq_false_iff a b).2 hrank.ge, (higher_eq_false_iff b a).2 hrank.le⟩

/-! ### The construction on a rearranged collection (42_build.md R162, R172) -/

/-- A merge keeps the symbols of a collection distinct: the merged node has the symbol of one of its
two. -/
theorem nodup_syms_merge {a b : CodeTree} {q : List CodeTree}
    (h : ((a :: b :: q).map CodeTree.sym).Nodup) : ((mergeNodes a b :: q).map CodeTree.sym).Nodup :=
  h.sublist ((List.sublist_cons_self b.sym _).cons_cons a.sym)

theorem buildLoop_perm {fuel : Nat} {q q' : List CodeTree} (hq : (q.map CodeTree.sym).Nodup)
    (hperm : q.Perm q') : buildLoop fuel q = buildLoop fuel q' := by
  induction fuel generalizing q q' with
  | zero => rfl
  | succ fuel ih =>
    unfold buildLoop
    cases ha : extractHighest q with
    | none =>
      obtain rfl := extractHighest_eq_none.1 ha
      obtain rfl := hperm.symm.eq_nil
      rw [ha]
    | some first =>
      obtain ⟨a, q₁⟩ := first
      obtain ⟨q₁', ha', hperm₁⟩ := extractHighest_perm hq hperm ha
      have hq₁ := ((extractHighest_spec ha).1.map CodeTree.sym).nodup_iff.1 hq
      rw [ha']
      dsimp only
      cases hb : extractHighest q₁ with
      | none =>
        obtain rfl := extractHighest_eq_none.1 hb
        obtain rfl := hperm₁.symm.eq_nil
        rw [hb]
      | some second =>
        obtain ⟨b, q₂⟩ := second
        obtain ⟨q₂', hb', hperm₂⟩ := extractHighest_perm (List.nodup_cons.1 hq₁).2 hperm₁ hb
        have hq₂ := (((extractHighest_spec hb).1.cons a).map CodeTree.sym).nodup_iff.1 hq₁
        rw [hb']
        exact ih (nodup_syms_merge hq₂) (hperm₂.cons _)

theorem buildFrom_perm {q q' : List CodeTree} (hq : (q.map CodeTree.sym).Nodup) (hperm : q.Perm q') :
    buildFrom q = buildFrom q' := by
  rw [buildFrom, hperm.length_eq]
  exact buildLoop_perm hq hperm

/-! ### The symbols that have a code (42_build.md R168) -/

theorem code_isSome_iff {t : CodeTree} {sym : Sym} :
    (t.code sym).isSome = true ↔ sym ∈ t.leafSyms := by
  cases t with
  | leaf sym' count => simp [CodeTree.code, eq_comm (a := sym)]
  | node nsym count left right =>
    rw [code_node, Option.isSome_iff_ne_none, ne_eq, path_eq_none_iff, not_not]

theorem buildTree_code_isSome_iff {f : Memory} {t : CodeTree} (h : buildTree f = some t) (sym : Sym) :
    (t.code sym).isSome = true ↔ f.read (ftIndex sym) ≠ 0 := by
  rw [code_isSome_iff, (buildTree_leafSyms_perm h).mem_iff, mem_countedSyms]

end Sys2Proof.Machine
end

section
/-! SUPPORT. The words of the assembler (30_encoding.md R99): each is that of a command, and an operand
out of range gives none. -/

namespace Sys2Proof.Machine

/-- Every assembled word is that of a command. -/
theorem decode_of_assembleWords {c : AsmCommand} {ws : List Word} (h : assembleWords c = some ws) :
    ∀ w ∈ ws, (decode w).isSome = true := by
  obtain ⟨is, -, rfl⟩ := Option.map_eq_some_iff.1 h
  intro w hw
  obtain ⟨i, -, rfl⟩ := List.mem_map.1 hw
  rw [decode_encode]
  rfl

theorem decode_of_assembleLine {line : List Char} {ws : List Word} (h : assembleLine line = some ws) :
    ∀ w ∈ ws, (decode w).isSome = true := by
  unfold assembleLine at h
  split at h
  · cases h
    simp
  · split at h
    · exact decode_of_assembleWords h
    · cases h
  · cases h

theorem symOperand_eq_none {n : Nat} : symOperand n = none ↔ 255 < n := by
  simp [symOperand, symOperandOk]

theorem countOperand_eq_none {n : Nat} : countOperand n = none ↔ 0xFFFFFFFF < n := by
  simp [countOperand, countOperandOk]

theorem bitOperand_eq_none {n : Nat} : bitOperand n = none ↔ 1 < n := by
  simp [bitOperand, bitOperandOk]

theorem pairCommand_eq_none {p : Nat × Nat} :
    pairCommand p = none ↔ (255 < p.1 ∨ 0xFFFFFFFF < p.2) := by
  rw [← symOperand_eq_none, ← countOperand_eq_none, pairCommand]
  cases symOperand p.1 <;> cases countOperand p.2 <;> simp

end Sys2Proof.Machine
end

section
/-! SUPPORT. What no host action touches (20_memory.md R72): the rest of the script, and the position. -/

namespace Sys2Proof.Machine

theorem hostAct_host_script (a : HostAction) (s : State) :
    (hostAct a s).host.script = s.host.script := by
  cases a <;> rfl

theorem hostAct_pos (a : HostAction) (s : State) : (hostAct a s).pos = s.pos := by
  cases a <;> rfl

end Sys2Proof.Machine
end

section
/-! The statements about the machine as a whole, settled from the lemmas above. -/

open Sys2Proof Sys2Proof.Machine

/-! ### The encoding and the assembler (30_encoding.md) -/

/-- Settles O5: each assembled word is a well-formed word of the row of its command. -/
theorem decodeOfEncodeIsTheCommand : Obligations.DecodeOfEncodeIsTheCommand := decode_encode

/-- Settles O6: the fields that a command does not carry are zero in a legal word. -/
theorem encodeOfDecodeIsTheWord : Obligations.EncodeOfDecodeIsTheWord := fun _ _ => encode_of_decode

/-- Settles O4: the legal words are assembled words, and the others break a check of R93. -/
theorem spelledOutWordsDecode : Obligations.SpelledOutWordsDecode := by
  have illegal {w : Word} : wordWF w = false → decode w = none := (decode_eq_none_iff_wordWF w).2
  exact ⟨decode_encode .nop, decode_encode (.fwr 0x61 5), decode_encode (.finc 0x61),
    decode_encode (.frd 0x61), decode_encode .build, decode_encode (.enc 0x41),
    decode_encode (.wbit true), decode_encode (.wbit false), decode_encode .rbit,
    illegal rfl, illegal rfl, illegal rfl, illegal rfl, illegal rfl⟩

/-- Settles O59: the assembler encodes commands, and checks each operand against its range. -/
theorem assembledWordsAreLegal : Obligations.AssembledWordsAreLegal := by
  refine ⟨fun _ _ => decode_of_assembleWords, fun _ _ => decode_of_assembleLine, fun n count => ?_⟩
  simp only [assembleWords, assemble, Option.map_eq_none_iff, pairCommand_eq_none, symOperand_eq_none,
    bitOperand_eq_none, and_self]

/-! ### The invariant (10_state.md) -/

/-- Settles O43: a step is reset, leaves the core's tuple, raises the cause of its word, or executes a
command that keeps each part of the invariant. -/
theorem stepKeepsTheInvariant : Obligations.StepKeepsTheInvariant := fun _ _ hinv h => hinv.of_step h

/-- Settles O2: the start of a run is what reset leaves. -/
theorem resetStateMeetsTheInvariant : Obligations.ResetStateMeetsTheInvariant :=
  ⟨atReset_applyReset State.reset, inv_applyReset State.reset⟩

/-! ### Steps and commands (20_memory.md, 70_reset_and_hazards.md) -/

/-- Settles O37: every command is an effect behind the gate, which answers in either mode. -/
theorem everyCommandCompletes : Obligations.EveryCommandCompletes := ⟨exec_next, step_next⟩

/-- Settles O9: the core's step is the command on the state after the word is accepted. -/
theorem stepExecutesThePresentedCommand : Obligations.StepExecutesThePresentedCommand := by
  intro s w i hcmd hw
  rw [step_of_cmd hcmd, coreStep, hw]
  rfl

/-- Settles O13: the host's step with an empty script. -/
theorem idleKeepsAllState : Obligations.IdleKeepsAllState := by
  intro s hcmd hscript
  rw [step, hcmd, hostStep, hscript]

/-- Settles O14: the host acts only while no word is at the port, and each action has its one effect. -/
theorem hostActionsTouchOnlyTheirPart : Obligations.HostActionsTouchOnlyTheirPart := by
  intro s a rest hscript
  refine ⟨fun w hcmd t hstep => ?_, fun hcmd => ?_⟩
  · obtain ⟨u, hu, -, -, hhost⟩ := coreStep_next w s
    cases next_unique hstep ((step_of_cmd hcmd).trans hu)
    exact hhost
  · have hstep := step_of_hostAction hcmd hscript
    refine ⟨_, hstep, hostAct_host_script a _, hostAct_pos a _, fun ha => ?_, ?_, ?_, ?_, ?_, ?_, ?_⟩
    · have hreset : ¬ ResetIsNext s := fun ⟨_, hhead⟩ => ha (by simpa [hscript] using hhead)
      exact step_sameCore_of_no_word hcmd hreset hstep
    · rintro w rfl
      exact ⟨rfl, rfl, rfl, rfl⟩
    · rintro bytes rfl
      exact ⟨rfl, rfl, rfl, hcmd⟩
    · rintro n rfl hn
      exact ⟨s.bout.take n, List.length_take_of_le hn, (List.take_append_drop n s.bout).symm, rfl, rfl,
        rfl, hcmd⟩
    · rintro n rfl hn
      exact ⟨s.sout.take n, List.length_take_of_le hn, (List.take_append_drop n s.sout).symm, rfl, rfl,
        rfl, hcmd⟩
    · rintro idx rfl
      exact ⟨rfl, rfl, rfl, hcmd, rfl⟩
    · rintro rfl
      exact ⟨atReset_applyReset _, rfl, rfl, rfl, hcmd⟩

/-- Settles O39: only fills take bytes from BIN, and the writer and DEC append. -/
theorem streamsMoveOneWay : Obligations.StreamsMoveOneWay :=
  fun _ _ _ hcmd h => coreStep_streamsMove ((step_of_cmd hcmd).symm.trans h)

/-- Settles O40: the effect of each of the six commands, applied twice, is the effect. -/
theorem idempotentCommands : Obligations.IdempotentCommands := by
  rintro i s t (rfl | rfl | ⟨sym, n, rfl⟩ | ⟨sym, rfl⟩ | rfl | rfl) h
  · exact exec_nop t
  · exact exec_idempotent (effect := fun u => { u with ft := u.ft.clear }) (fun _ => rfl)
      (fun _ => rfl) h
  · exact exec_idempotent (fun _ => rfl)
      (fun u => congrArg ({ u with ft := · }) (Memory.write_write u.ft (ftIndex sym) n)) h
  · exact exec_idempotent (effect := fun u => { u with res := u.ft.read (ftIndex sym) })
      (fun _ => rfl) (fun _ => rfl) h
  · exact exec_idempotent (effect := afterBuild) (fun _ => rfl) (fun _ => rfl) h
  · exact exec_idempotent (fun _ => rfl) bwFlush_bwFlush h

/-- Settles O41: the reader only sets EOS, and every effect ignores it. -/
theorem eosIsStickyAndUnread : Obligations.EosIsStickyAndUnread :=
  ⟨fun _ _ => step_eos, fun _ _ _ => exec_withEos⟩

/-- Settles O42: only a fill from an empty BIN draws, and it sets EOS for good. -/
theorem drawsMatterOnlyWithEos : Obligations.DrawsMatterOnlyWithEos :=
  fun _ _ _ _ heos => ⟨execRinitWith_of_eos heos, execRbitWith_of_eos heos, execDecWith_of_eos heos⟩

/-! ### The tree (42_build.md) -/

/-- Settles O44: the relation is the order of the ranks. -/
theorem higherIsAStrictOrder : Obligations.HigherIsAStrictOrder :=
  ⟨higher_self, fun _ _ _ => higher_trans, fun _ _ => higher_total, fun _ _ => higher_of_eq⟩

/-- Settles O46: each round extracts the same two nodes, and their merge keeps the symbols distinct. -/
theorem buildIgnoresInsertionOrder : Obligations.BuildIgnoresInsertionOrder := fun _ _ => buildFrom_perm

/-- Settles O53: a path exists exactly for the leaves, and leads to one. -/
theorem codesExistExactlyForLeaves : Obligations.CodesExistExactlyForLeaves :=
  ⟨fun _ _ => code_isSome_iff, fun _ _ _ _ _ _ => descend_of_path,
    fun _ _ sym h => buildTree_code_isSome_iff h sym⟩

end
